-- ==== Sys2Proof/Word.lean ====
section
/-! DEFINITION. The bit-vector types the spec treats as bits, and the Frame. -/

namespace Sys2Proof

/-- A byte: 8 bits, an unsigned value 0 to 255 (00_scope.md section 7). -/
abbrev Byte := BitVec 8

/-- A 16-bit field or Sample output (30_encoding.md R57, 10_state.md R19). -/
abbrev Half := BitVec 16

/-- The input event word `rst ++ in_valid ++ in_data[7:0]` (30_encoding.md R66). -/
abbrev EventWord := BitVec 10

/-- A Frame: byte `i` of the list is `frame[i]` (20_memory.md R30, 30_encoding.md R55). Its length is
the parameter `FRAME_LENGTH`, which no type fixes: an invariant says it (log entry 10). -/
abbrev Frame := List Byte

end Sys2Proof
end

