-- ==== Sys2Proof/Config.lean ====
section
/-! DEFINITION. The static parameters of a built block (00_scope.md section 5, R3 to R8), and the one
free value of the model. -/

namespace Sys2Proof

/-- `SYNC_POLICY` (00_scope.md R5): A "marker re-trigger", B "cumulative append with terminal check". -/
inductive Policy where
  | A
  | B
deriving DecidableEq, Repr

/-- The parameter record of 00_scope.md section 5. No operation reads or writes it through the
block's interface and none changes it (R8). `IDX_WIDTH` is derived (`Machine.idxWidth`). -/
structure Config where
  /-- `FRAME_LENGTH` (R3): bytes in a Frame and capacity of the buffer; at least 82 (`Config.wf`). -/
  frameLength : Nat
  /-- `MARKER` (R4): the start-of-frame byte. -/
  marker : Byte
  /-- `SYNC_POLICY` (R5). -/
  policy : Policy
  /-- `DIAG_WIDTH` (R6): bits of `desync_count`; 0 means the counter is absent. -/
  diagWidth : Nat
deriving DecidableEq, Repr

/-- The spec's own choice of every parameter ("this spec's choice" in the table of 00_scope.md
section 5): 154 (D3), 0x4D (D4; PRESUMED by the spec itself, its G1), B (D1), 16 (D14).
DESIGN CHOICE of the spec, log entry 2; every statement is for any parameters. -/
def Config.spec : Config where
  frameLength := 154
  marker := 0x4D#8
  policy := .B
  diagWidth := 16

/-- What `buf[i]` holds while nothing has written it: the spec leaves it unspecified and says `any value`
(10_state.md R12, R22; 93 U1). A free value with no body: nothing can be proved of it, so what is
proved holds for every content the buffer may power up with (log entry 4). -/
opaque Config.staleByte : Nat → Byte

end Sys2Proof
end

