-- ==== Sys2Proof/Syntax.lean ====
section
/-! DEFINITION. Events, state classes, the operations (one constructor per row of
spec/opcode_table.json), their encodings, and the reasons decoding refuses. -/

namespace Sys2Proof

/-- The event alphabet (00_scope.md R9): one event is one step. -/
inductive Event where
  | reset
  | idle
  | feed (b : Byte)
deriving DecidableEq, Repr

/-- The state classes of 10_state.md R13 and 30_encoding.md R52. `filling` is FILLING without its
sub-case LAST; `overrun` (`fillIndex > FRAME_LENGTH`) is no class of the spec: it names the states
outside the range of `fillIndex`, which no run reaches (93 U3). -/
inductive StateClass where
  | empty
  | filling
  | last
  | full
  | overrun
deriving DecidableEq, Repr

/-- The operations: one constructor per row of spec/opcode_table.json, in the table's order. An
assembler operation that an event `FEED b` selects carries the byte `b`; a decoder field carries the
assembled 16-bit value `h ++ l` of its row's pattern (30_encoding.md R57, R66). -/
inductive Instr where
  | reset
  | idle
  | bStart (b : Byte)
  | bDrop (b : Byte)
  | bAppend (b : Byte)
  | bComplete (b : Byte)
  | aStart (b : Byte)
  | aDropEmpty (b : Byte)
  | aAppend (b : Byte)
  | aRetrigger (b : Byte)
  | aDropFull (b : Byte)
  | accX (raw : Half)
  | accY (raw : Half)
  | accZ (raw : Half)
  | gyrX (raw : Half)
  | gyrY (raw : Half)
  | gyrZ (raw : Half)
  | magX (raw : Half)
  | magY (raw : Half)
  | magZ (raw : Half)
  | baro (raw : Half)
  | heading (raw : Half)
  | roll (raw : Half)
  | pitch (raw : Half)
deriving DecidableEq, Repr

/-- An encoded operation, by the table's `format` (30_encoding.md R66): `EVENT`, a 10-bit input event
word; or `FRAME16`, the 16-bit value found at a byte offset of a Frame. -/
inductive Encoding where
  | event (w : EventWord)
  | frame16 (off : Nat) (raw : Half)
deriving DecidableEq, Repr

/-- Why a decoding is refused. No input the block can be given is illegal (30_encoding.md R61): these
name words that are no input, and offsets and classes that select nothing. -/
inductive DecodeReject where
  /-- Fewer bits than the 10 of an event word. -/
  | tooNarrow
  /-- A set bit above bit 9, where the event word has no bit. -/
  | bitsAboveEvent
  /-- `FEED` in a class that selects no operation: FULL under Policy B, or beyond FULL (93 U3). -/
  | noOperation
  /-- A 16-bit value at a Frame offset where no field begins (30_encoding.md R56, R60). -/
  | unassignedOffset
  /-- The Frame has no two bytes at the offset (fewer than 82 bytes, 93 U7). -/
  | frameTooShort
deriving DecidableEq, Repr

end Sys2Proof
end

