-- ==== Sys2Proof/WellFormed.lean ====
section
/-! DEFINITION. Which parameter records and which instructions are well formed. -/

namespace Sys2Proof

/-- The constraint on the parameters: `FRAME_LENGTH ≥ 82` (00_scope.md R3, 93 U7). -/
def Config.wf (cfg : Config) : Bool := decide (82 ≤ cfg.frameLength)

/-- An instruction a block built with `cfg` can select, whatever its state: its policy is the built
one (00_scope.md R5) and its byte is in the class its row names (30_encoding.md R51, R53, R54, the
table's `policy` and `byte_class`). The condition on the state class is `Instr.classOk`. -/
def Instr.wf (cfg : Config) : Instr → Bool
  | .reset => true
  | .idle => true
  | .bStart b => decide (cfg.policy = .B) && decide (b = cfg.marker)
  | .bDrop b => decide (cfg.policy = .B) && decide (b ≠ cfg.marker)
  | .bAppend _ => decide (cfg.policy = .B)
  | .bComplete _ => decide (cfg.policy = .B)
  | .aStart b => decide (cfg.policy = .A) && decide (b = cfg.marker)
  | .aDropEmpty b => decide (cfg.policy = .A) && decide (b ≠ cfg.marker)
  | .aAppend _ => decide (cfg.policy = .A)
  | .aRetrigger b => decide (cfg.policy = .A) && decide (b = cfg.marker)
  | .aDropFull b => decide (cfg.policy = .A) && decide (b ≠ cfg.marker)
  | .accX _ => true
  | .accY _ => true
  | .accZ _ => true
  | .gyrX _ => true
  | .gyrY _ => true
  | .gyrZ _ => true
  | .magX _ => true
  | .magY _ => true
  | .magZ _ => true
  | .baro _ => true
  | .heading _ => true
  | .roll _ => true
  | .pitch _ => true

/-- The state classes in which an instruction may be selected (30_encoding.md R53, R54, the table's
`state`). `A.APPEND` covers FILLING with its sub-case LAST. -/
def Instr.classOk (cls : StateClass) : Instr → Bool
  | .reset => true
  | .idle => true
  | .bStart _ => decide (cls = .empty)
  | .bDrop _ => decide (cls = .empty)
  | .bAppend _ => decide (cls = .filling)
  | .bComplete _ => decide (cls = .last)
  | .aStart _ => decide (cls = .empty)
  | .aDropEmpty _ => decide (cls = .empty)
  | .aAppend _ => decide (cls = .filling) || decide (cls = .last)
  | .aRetrigger _ => decide (cls = .full)
  | .aDropFull _ => decide (cls = .full)
  | .accX _ => true
  | .accY _ => true
  | .accZ _ => true
  | .gyrX _ => true
  | .gyrY _ => true
  | .gyrZ _ => true
  | .magX _ => true
  | .magY _ => true
  | .magZ _ => true
  | .baro _ => true
  | .heading _ => true
  | .roll _ => true
  | .pitch _ => true

end Sys2Proof
end

