-- ==== Sys2Proof/Decode.lean ====
section
/-! DEFINITION. From an input event word to an event, from an event to the operation it selects, from a
Frame to its thirteen field instructions; then the encoder (30_encoding.md sections 1, 2, 4, 8). -/

namespace Sys2Proof

/-- `rst` is bit 9 of the event word (30_encoding.md R66). -/
def rstBit (w : EventWord) : Bool := w.getLsbD 9

/-- `in_valid` is bit 8 of the event word. -/
def inValidBit (w : EventWord) : Bool := w.getLsbD 8

/-- `in_data[7:0]` is bits 7:0 of the event word. -/
def inData (w : EventWord) : Byte := w.extractLsb' 0 8

/-- Decoding to an event (30_encoding.md R50; `rst` overrides, 60_exceptions.md R146 (1)). -/
def decodeEvent (w : EventWord) : Event :=
  if rstBit w then .reset
  else if inValidBit w then .feed (inData w)
  else .idle

/-- Operation selection of `FEED b` under Policy B (30_encoding.md R53). -/
def selectB (marker : Byte) (cls : StateClass) (b : Byte) : Option Instr :=
  match cls with
  | .empty => if b = marker then some (.bStart b) else some (.bDrop b)
  | .filling => some (.bAppend b)
  | .last => some (.bComplete b)
  | .full => none
  | .overrun => none

/-- Operation selection of `FEED b` under Policy A (30_encoding.md R54). -/
def selectA (marker : Byte) (cls : StateClass) (b : Byte) : Option Instr :=
  match cls with
  | .empty => if b = marker then some (.aStart b) else some (.aDropEmpty b)
  | .filling => some (.aAppend b)
  | .last => some (.aAppend b)
  | .full => if b = marker then some (.aRetrigger b) else some (.aDropFull b)
  | .overrun => none

/-- The one operation an event selects (40_frame_assembler.md R70); `none` only for `FEED` in the
classes of 93 U3, which no run reaches. -/
def select (cfg : Config) (cls : StateClass) (ev : Event) : Option Instr :=
  match ev with
  | .reset => some .reset
  | .idle => some .idle
  | .feed b =>
    match cfg.policy with
    | .A => selectA cfg.marker cls b
    | .B => selectB cfg.marker cls b

/-- The field instruction whose field begins at byte offset `off` of a Frame (30_encoding.md R56). -/
def decodeField (off : Nat) (raw : Half) : Except DecodeReject Instr :=
  match off with
  | 2 => .ok (.accX raw)
  | 4 => .ok (.accY raw)
  | 6 => .ok (.accZ raw)
  | 8 => .ok (.gyrX raw)
  | 10 => .ok (.gyrY raw)
  | 12 => .ok (.gyrZ raw)
  | 14 => .ok (.magX raw)
  | 16 => .ok (.magY raw)
  | 18 => .ok (.magZ raw)
  | 20 => .ok (.baro raw)
  | 22 => .ok (.heading raw)
  | 78 => .ok (.roll raw)
  | 80 => .ok (.pitch raw)
  | _ => .error .unassignedOffset

/-- The thirteen low-byte offsets of 30_encoding.md R56, in the table's order. -/
def fieldOffsets : List Nat := [2, 4, 6, 8, 10, 12, 14, 16, 18, 20, 22, 78, 80]

/-- The 16-bit value of the byte pair at `off`: low byte at the lower offset (20_memory.md R33,
`MemRead(off, 2) = frame[off+1] ++ frame[off]`); nothing where the Frame has no such pair. -/
def frameWord (F : Frame) (off : Nat) : Option Half :=
  match F[off]?, F[off + 1]? with
  | some lo, some hi => some (hi ++ lo)
  | _, _ => none

/-- The field instructions at the given offsets of a Frame. -/
def fieldInstrs (F : Frame) : List Nat → Except DecodeReject (List Instr)
  | [] => .ok []
  | off :: offs =>
    match frameWord F off with
    | none => .error .frameTooShort
    | some raw =>
      match decodeField off raw with
      | .error e => .error e
      | .ok i =>
        match fieldInstrs F offs with
        | .error e => .error e
        | .ok is => .ok (i :: is)

/-- The thirteen field instructions of a Frame, in the order of R56. -/
def frameInstrs (F : Frame) : Except DecodeReject (List Instr) := fieldInstrs F fieldOffsets

/-- The operation an event word selects in a block built with `cfg` whose state class is `cls`. -/
def decodeEventWord (cfg : Config) (cls : StateClass) (w : EventWord) : Except DecodeReject Instr :=
  match select cfg cls (decodeEvent w) with
  | some i => .ok i
  | none => .error .noOperation

/-- Decoding of either format of the table (30_encoding.md R66). -/
def decode (cfg : Config) (cls : StateClass) : Encoding → Except DecodeReject Instr
  | .event w => decodeEventWord cfg cls w
  | .frame16 off raw => decodeField off raw

/-- Decoding of a number given as a word of `nbits` bits: an event word has 10 bits, so fewer are too
few and a set bit above bit 9 is none of its bits. -/
def decodeNumber (cfg : Config) (cls : StateClass) (nbits w : Nat) : Except DecodeReject Instr :=
  if nbits < 10 then .error .tooNarrow
  else if 1024 ≤ w then .error .bitsAboveEvent
  else decodeEventWord cfg cls (BitVec.ofNat 10 w)

/-- The instruction the word `w` selects as the first after reset: the parameters and the state class
(EMPTY) are those of `State.reset`, because rows of the table share their words and the policy and the
class tell them apart (30_encoding.md R66; log entry 14). -/
def decodeTableWord (nbits w : Nat) : Option Instr :=
  match decodeNumber Config.spec .empty nbits w with
  | .ok i => some i
  | .error _ => none

/-- The event word of `FEED b`: `rst = 0`, `in_valid = 1`, `in_data = b`. -/
def feedWord (b : Byte) : EventWord := 0b01#2 ++ b

/-- The encoding of an instruction (30_encoding.md R56, R66). `RESET` and `IDLE` leave bits free that
decoding ignores; they are encoded with those bits 0, the table's `match` (log entry 15). -/
def encode : Instr → Encoding
  | .reset => .event 0x200#10
  | .idle => .event 0x000#10
  | .bStart b => .event (feedWord b)
  | .bDrop b => .event (feedWord b)
  | .bAppend b => .event (feedWord b)
  | .bComplete b => .event (feedWord b)
  | .aStart b => .event (feedWord b)
  | .aDropEmpty b => .event (feedWord b)
  | .aAppend b => .event (feedWord b)
  | .aRetrigger b => .event (feedWord b)
  | .aDropFull b => .event (feedWord b)
  | .accX raw => .frame16 2 raw
  | .accY raw => .frame16 4 raw
  | .accZ raw => .frame16 6 raw
  | .gyrX raw => .frame16 8 raw
  | .gyrY raw => .frame16 10 raw
  | .gyrZ raw => .frame16 12 raw
  | .magX raw => .frame16 14 raw
  | .magY raw => .frame16 16 raw
  | .magZ raw => .frame16 18 raw
  | .baro raw => .frame16 20 raw
  | .heading raw => .frame16 22 raw
  | .roll raw => .frame16 78 raw
  | .pitch raw => .frame16 80 raw

end Sys2Proof
end

