-- ==== Sys2Proof/Machine/State.lean ====
section
/-! DEFINITION. The state of the block, the reasons a step can stop, and the state after reset. -/

namespace Sys2Proof.Machine

open Sys2Proof

/-- The bytes that have been written, as pairs of an index and the byte there, indices strictly rising
(`Memory.wf`). Every index has a byte (`Memory.read`): one that nothing has written, and so is not
listed, reads as the free value `Config.staleByte` (10_state.md R21, R22, 93 U1; log entry 4). That
value equals no byte that anything can name, so a write lists its byte always. -/
abbrev Memory := List Host.Cell

/-- The thirteen Sample outputs of 10_state.md R19, in the order of 30_encoding.md R56. An output is
absent in a step whose `frame_valid` is 0, where the spec gives it no value (93 U5; log entry 5). -/
structure SampleOut where
  accX : Option Half
  accY : Option Half
  accZ : Option Half
  gyrX : Option Half
  gyrY : Option Half
  gyrZ : Option Half
  magX : Option Half
  magY : Option Half
  magZ : Option Half
  baro : Option Half
  heading : Option Half
  roll : Option Half
  pitch : Option Half
deriving DecidableEq, Repr

/-- No Sample output has a value. -/
def SampleOut.absent : SampleOut where
  accX := none
  accY := none
  accZ := none
  gyrX := none
  gyrY := none
  gyrZ := none
  magX := none
  magY := none
  magZ := none
  baro := none
  heading := none
  roll := none
  pitch := none

/-- The output record `{frame, dropped}` of a step (00_scope.md R9), with the Sample outputs that the
decoder gives on `frame_data` in the same step (41_telemetry_decoder.md R127). -/
structure Output where
  frame : Option Frame
  dropped : Bool
  sample : SampleOut
deriving DecidableEq, Repr

/-- `out.frame = none`, `out.dropped = false` (40_frame_assembler.md R70); no Sample output has a value (log
entry 5). -/
def Output.quiet : Output where
  frame := none
  dropped := false
  sample := SampleOut.absent

/-- The state. `buf`, `fillIndex` and `desyncCount` are all the storage of the block (10_state.md R10,
R11, R14, R15). `cfg`, `pending` and `out` are the arguments and the result of the spec's step
relation `step(cfg, s, ev) = (s', out)` (00_scope.md R9), carried here because a step of the host's
interface takes and gives one state (log entries 1, 3, 5). -/
structure State where
  /-- The static parameters; no operation writes them (00_scope.md R8). -/
  cfg : Config
  /-- The assembly buffer `buf` (10_state.md R10): `FRAME_LENGTH` bytes, each with a value in every
  state (`State.bufByte`); the list holds those that have been written. -/
  buf : Memory
  /-- The write cursor (10_state.md R11). -/
  fillIndex : Nat
  /-- The diagnostic counter `desync_count` (10_state.md R14). -/
  desyncCount : Nat
  /-- Input event words the producer has yet to present, next one first (10_state.md R17). -/
  pending : List EventWord
  /-- The outputs of the step that led to this state (10_state.md R18, R19). -/
  out : Output
deriving DecidableEq, Repr

/-- Why the machine stops. The spec's operations never trap (60_exceptions.md R140): each fault names a
situation the spec calls unreachable, and no run from reset raises one. -/
inductive Fault where
  /-- Raised by a step whose `FEED` meets `fillIndex = FRAME_LENGTH` under Policy B or
  `fillIndex > FRAME_LENGTH` (93 U3: "make the step `fault` there"), and by an append at or beyond
  capacity (60_exceptions.md R143). SAFE: log entry 7. -/
  | bufferOverrun
  /-- Raised by the meaning of an assembler operation executed where its rule's selection condition
  does not hold; no step does so. SAFE: log entry 6. -/
  | notSelected
  /-- Raised by the decoder on a Frame of fewer than 82 bytes, which only parameters that violate
  00_scope.md R3 give (93 U7). SAFE: log entry 10. -/
  | frameTooShort
deriving DecidableEq, Repr

/-- Why a step gives an instruction no meaning. -/
inductive Refusal where
  /-- Raised only by an arm of `exec` that has no meaning yet; no arm is left so. SAFE. -/
  | notModelled (mnemonic : String)
deriving DecidableEq, Repr

/-- The machine right after reset (10_state.md R22, 70_reset_and_hazards.md R172): `fillIndex = 0`,
`desync_count = 0`, every `buf[i]` unspecified (nothing written: the free value), no Frame, no drop. The parameters are
the spec's own choice (log entry 2); the producer has presented nothing yet (log entry 3). -/
def State.reset : State where
  cfg := Config.spec
  buf := []
  fillIndex := 0
  desyncCount := 0
  pending := []
  out := Output.quiet

end Sys2Proof.Machine
end

