-- ==== Sys2Proof/Machine/Ops.lean ====
section
/-! DEFINITION. The operations the meanings share: the buffer's reads and writes, the append, the
emission, the drop, and how parts of one step follow each other. The block has no exception entry and
no return (60_exceptions.md R140, R147, R148); the one thing its error classes do is `State.noteDrop`. -/

namespace Sys2Proof.Machine

open Sys2Proof

/-- The three outcomes of one step of this machine. -/
abbrev Result := Host.Outcome State Fault Refusal

/-- The second part of a step, after the first gave a next state. -/
def andThen (r : Result) (f : State → Result) : Result :=
  match r with
  | .next s => f s
  | .fault e => .fault e
  | .refused e => .refused e

/-- An operation under its rule's selection condition (log entry 6). -/
def whenSelected (sel : Bool) (r : Result) : Result :=
  if sel then r else .fault .notSelected

/-! ## The buffer -/

/-- The byte last written at an index; none where nothing has been written. -/
def Memory.lookup : Memory → Nat → Option Byte
  | [], _ => none
  | (a, b) :: m, i => if a = i then some b else Memory.lookup m i

/-- The byte at an index: what was last written there, or the unspecified reset content, a free value
(10_state.md R12, R22, 93 U1; log entry 4). -/
def Memory.read (m : Memory) (i : Nat) : Byte := (m.lookup i).getD (Config.staleByte i)

/-- `buf[i] <- v`, keeping the indices strictly rising. -/
def Memory.write : Memory → Nat → Byte → Memory
  | [], i, v => [(i, v)]
  | (a, b) :: m, i, v =>
    if i < a then (i, v) :: (a, b) :: m
    else if i = a then (i, v) :: m
    else (a, b) :: Memory.write m i v

/-- Every index of the list is above `lo`. -/
def Memory.above (lo : Nat) : Memory → Bool
  | [] => true
  | (a, _) :: m => decide (lo < a) && Memory.above lo m

/-- The canonical form: indices strictly rising. -/
def Memory.wf : Memory → Bool
  | [] => true
  | (a, _) :: m => Memory.above a m && Memory.wf m

/-- Every index lies below `n` (20_memory.md R30: indices are `0 .. FRAME_LENGTH - 1`). -/
def Memory.below (n : Nat) : Memory → Bool
  | [] => true
  | (a, _) :: m => decide (a < n) && Memory.below n m

/-- The `n` bytes from index `start` on. -/
def Memory.readRange (m : Memory) (start n : Nat) : Frame := (List.range' start n).map m.read

/-- `buf[i]`: the array has exactly the indices `0 .. FRAME_LENGTH - 1` (10_state.md R10), and there is a
byte at each of them in every state. -/
def State.bufByte (s : State) (i : Nat) : Option Byte :=
  if i < s.cfg.frameLength then some (s.buf.read i) else none

/-- `snapshot(buf)` (00_scope.md section 7): the Frame whose byte `i` is `buf[i]` for every `i` in
`0 .. FRAME_LENGTH - 1`. -/
def State.snapshot (s : State) : Frame := s.buf.readRange 0 s.cfg.frameLength

/-! ## Updates of the state -/

/-- `out.frame = none`, `out.dropped = false`: what every operation starts from (40 R70). -/
def State.clearOut (s : State) : State := { s with out := Output.quiet }

/-- `MemWrite(fillIndex, 1, b); fillIndex <- fillIndex + 1` (20_memory.md R31). -/
def State.store (b : Byte) (s : State) : State :=
  { s with buf := s.buf.write s.fillIndex b, fillIndex := s.fillIndex + 1 }

/-- `fillIndex <- v`. -/
def State.setFill (v : Nat) (s : State) : State := { s with fillIndex := v }

/-- `out.frame` is the Frame `F` (`emit F`, 00_scope.md section 7). -/
def State.setFrame (F : Frame) (s : State) : State :=
  { s with out := { s.out with frame := some F } }

/-- `emit snapshot(buf)` (00_scope.md section 7). -/
def State.emit (s : State) : State := s.setFrame s.snapshot

/-- `sat_inc_W(c)`: `c + 1` if `c < 2^W - 1`, else `c`; for `W = 0` nothing (00_scope.md section 7). -/
def satInc (width c : Nat) : Nat := if c < 2 ^ width - 1 then c + 1 else c

/-- `drop; note DesyncError`, then the counter (40 R70, R72; 60_exceptions.md R141, R146 (4)): the byte
is stored nowhere, `drop = 1`, `desync_count` rises by one and saturates. -/
def State.noteDrop (s : State) : State :=
  { s with
    out := { s.out with dropped := true }
    desyncCount := satInc s.cfg.diagWidth s.desyncCount }

/-- `fillIndex <- 0; desync_count <- 0` (70_reset_and_hazards.md R170). -/
def State.clearRegs (s : State) : State := { s with fillIndex := 0, desyncCount := 0 }

/-- A change of the Sample outputs. -/
def State.mapSample (f : SampleOut → SampleOut) (s : State) : State :=
  { s with out := { s.out with sample := f s.out.sample } }

/-- The events yet to be presented. -/
def State.setPending (ws : List EventWord) (s : State) : State := { s with pending := ws }

/-! ## Parts of a step -/

/-- The capacity-checked append (20_memory.md R31, R38; 60_exceptions.md R143). -/
def append (b : Byte) (s : State) : Result :=
  if s.fillIndex < s.cfg.frameLength then .next (s.store b) else .fault .bufferOverrun

/-- The producer's next event is the word of the number `w`; a number that is no event word (a bit
above bit 9) is no event and nothing is presented. -/
def State.presentNumber (s : State) (w : Nat) : State :=
  if w < 1024 then s.setPending (BitVec.ofNat 10 w :: s.pending) else s

end Sys2Proof.Machine
end

