-- ==== Sys2Proof/Machine/Flags.lean ====
section
/-! DEFINITION. State classes, the analogue of condition flags (10_state.md R13): predicates of
`fillIndex`, not separate storage. The block has no other flag. -/

namespace Sys2Proof.Machine

open Sys2Proof

/-- The class of a cursor value in a buffer of `len` bytes (10_state.md R13, 30_encoding.md R52). -/
def classOf (len fill : Nat) : StateClass :=
  if fill = 0 then .empty
  else if fill + 1 = len then .last
  else if fill < len then .filling
  else if fill = len then .full
  else .overrun

/-- The class of the resting state (30_encoding.md R52: "computed from the resting `fillIndex`
before the event"). -/
def State.stateClass (s : State) : StateClass := classOf s.cfg.frameLength s.fillIndex

end Sys2Proof.Machine
end

