-- ==== Sys2Proof/Machine/Operands.lean ====
section
/-! DEFINITION. The decoder's arithmetic (41_telemetry_decoder.md R111, R112), the Sample, and the
decoder as one pure function of a Frame (R110, 30_encoding.md R65 `DECODE`). -/

namespace Sys2Proof.Machine

open Sys2Proof

/-- The magnetometer divisor (00_scope.md R7). -/
def magDivisor : Int := 3

/-- The angle divisor (00_scope.md R7). -/
def angleDivisor : Int := 10

/-- `sext_16(v)`: the two's-complement reading (00_scope.md section 7). -/
def sext16 (v : Half) : Int := v.toInt

/-- `tdiv(a, d)`: division truncating toward zero (41 R112; the spec's decision D9, log entry 12). -/
def tdiv (a d : Int) : Int := Int.tdiv a d

/-- An integer as a 16-bit two's-complement output (30_encoding.md R59, 10_state.md R19). Every value
the rules can produce fits (41 R128). -/
def narrow16 (v : Int) : Half := BitVec.ofInt 16 v

/-- The output of a field passed unchanged (30_encoding.md R58). -/
def unscaledOut (raw : Half) : Half := narrow16 (sext16 raw)

/-- The output of a magnetometer field (30_encoding.md R58). -/
def magOut (raw : Half) : Half := narrow16 (tdiv (sext16 raw) magDivisor)

/-- The output of an angle field (30_encoding.md R58). -/
def angleOut (raw : Half) : Half := narrow16 (tdiv (sext16 raw) angleDivisor)

/-- `field16(frame, off)` (41 R111); nothing where the Frame has no such byte pair. -/
def field16 (F : Frame) (off : Nat) : Option Int := (frameWord F off).map sext16

/-- A Sample: thirteen signed integers in the order of 30_encoding.md R56 (R59). -/
structure Sample where
  accX : Int
  accY : Int
  accZ : Int
  gyrX : Int
  gyrY : Int
  gyrZ : Int
  magX : Int
  magY : Int
  magZ : Int
  baro : Int
  heading : Int
  roll : Int
  pitch : Int
deriving DecidableEq, Repr

/-- `decode(frame)` (41 R110 and the summary at the end of section 7 of that file); nothing for a Frame
of fewer than 82 bytes, which the block never emits. -/
def decodeSample (F : Frame) : Option Sample := do
  let accX ← field16 F 2
  let accY ← field16 F 4
  let accZ ← field16 F 6
  let gyrX ← field16 F 8
  let gyrY ← field16 F 10
  let gyrZ ← field16 F 12
  let magX ← field16 F 14
  let magY ← field16 F 16
  let magZ ← field16 F 18
  let baro ← field16 F 20
  let heading ← field16 F 22
  let roll ← field16 F 78
  let pitch ← field16 F 80
  some
    { accX := accX, accY := accY, accZ := accZ
      gyrX := gyrX, gyrY := gyrY, gyrZ := gyrZ
      magX := tdiv magX magDivisor, magY := tdiv magY magDivisor, magZ := tdiv magZ magDivisor
      baro := baro, heading := heading
      roll := tdiv roll angleDivisor, pitch := tdiv pitch angleDivisor }

/-- A Sample on the thirteen 16-bit outputs (10_state.md R19). -/
def Sample.outputs (x : Sample) : SampleOut where
  accX := some (narrow16 x.accX)
  accY := some (narrow16 x.accY)
  accZ := some (narrow16 x.accZ)
  gyrX := some (narrow16 x.gyrX)
  gyrY := some (narrow16 x.gyrY)
  gyrZ := some (narrow16 x.gyrZ)
  magX := some (narrow16 x.magX)
  magY := some (narrow16 x.magY)
  magZ := some (narrow16 x.magZ)
  baro := some (narrow16 x.baro)
  heading := some (narrow16 x.heading)
  roll := some (narrow16 x.roll)
  pitch := some (narrow16 x.pitch)

end Sys2Proof.Machine
end

