-- ==== Sys2Proof/Machine/Decoder.lean ====
section
/-! DEFINITION. The meanings of the thirteen decoder fields (41_telemetry_decoder.md R113 to R125): each
puts its value on its Sample output and changes nothing else. The operand `raw` is the assembled
`frame[hi] ++ frame[lo]`, which `Sys2Proof.fieldInstrs` reads from the emitted Frame (log entry 8). -/

namespace Sys2Proof.Machine

open Sys2Proof

/-- `acc_x` (41 R113): `field16` of its byte pair. -/
def execAccX (raw : Half) (s : State) : Result :=
  .next (s.mapSample fun o => { o with accX := some (unscaledOut raw) })

/-- `acc_y` (41 R114): `field16` of its byte pair. -/
def execAccY (raw : Half) (s : State) : Result :=
  .next (s.mapSample fun o => { o with accY := some (unscaledOut raw) })

/-- `acc_z` (41 R115): `field16` of its byte pair. -/
def execAccZ (raw : Half) (s : State) : Result :=
  .next (s.mapSample fun o => { o with accZ := some (unscaledOut raw) })

/-- `gyr_x` (41 R116): `field16` of its byte pair. -/
def execGyrX (raw : Half) (s : State) : Result :=
  .next (s.mapSample fun o => { o with gyrX := some (unscaledOut raw) })

/-- `gyr_y` (41 R117): `field16` of its byte pair. -/
def execGyrY (raw : Half) (s : State) : Result :=
  .next (s.mapSample fun o => { o with gyrY := some (unscaledOut raw) })

/-- `gyr_z` (41 R118): `field16` of its byte pair. -/
def execGyrZ (raw : Half) (s : State) : Result :=
  .next (s.mapSample fun o => { o with gyrZ := some (unscaledOut raw) })

/-- `mag_x` (41 R119): `tdiv(field16, 3)` of its byte pair. -/
def execMagX (raw : Half) (s : State) : Result :=
  .next (s.mapSample fun o => { o with magX := some (magOut raw) })

/-- `mag_y` (41 R120): `tdiv(field16, 3)` of its byte pair. -/
def execMagY (raw : Half) (s : State) : Result :=
  .next (s.mapSample fun o => { o with magY := some (magOut raw) })

/-- `mag_z` (41 R121): `tdiv(field16, 3)` of its byte pair. -/
def execMagZ (raw : Half) (s : State) : Result :=
  .next (s.mapSample fun o => { o with magZ := some (magOut raw) })

/-- `baro` (41 R122): `field16` of its byte pair. -/
def execBaro (raw : Half) (s : State) : Result :=
  .next (s.mapSample fun o => { o with baro := some (unscaledOut raw) })

/-- `heading` (41 R123): `field16` of its byte pair. -/
def execHeading (raw : Half) (s : State) : Result :=
  .next (s.mapSample fun o => { o with heading := some (unscaledOut raw) })

/-- `roll` (41 R124): `tdiv(field16, 10)` of its byte pair. -/
def execRoll (raw : Half) (s : State) : Result :=
  .next (s.mapSample fun o => { o with roll := some (angleOut raw) })

/-- `pitch` (41 R125): `tdiv(field16, 10)` of its byte pair. -/
def execPitch (raw : Half) (s : State) : Result :=
  .next (s.mapSample fun o => { o with pitch := some (angleOut raw) })

end Sys2Proof.Machine
end

