-- ==== Sys2Proof/Machine/PolicyA.lean ====
section
/-! DEFINITION. The meanings of the Policy A operations (40_frame_assembler.md section 3, R76 to R80),
each under its rule's selection condition. -/

namespace Sys2Proof.Machine

open Sys2Proof

/-- `A.START` (40 R77): the marker in EMPTY is stored at index 0, `fillIndex <- 1`. -/
def execAStart (b : Byte) (s : State) : Result :=
  whenSelected
    (decide (s.cfg.policy = .A) && decide (s.stateClass = .empty) && decide (b = s.cfg.marker))
    (append b s.clearOut)

/-- `A.DROP_EMPTY` (40 R76): a byte other than the marker in EMPTY is dropped. -/
def execADropEmpty (b : Byte) (s : State) : Result :=
  whenSelected
    (decide (s.cfg.policy = .A) && decide (s.stateClass = .empty) && decide (b ≠ s.cfg.marker))
    (.next s.clearOut.noteDrop)

/-- `A.APPEND` (40 R78): any byte in FILLING, LAST included, is stored at `fillIndex`; nothing is
emitted even when the buffer becomes full. -/
def execAAppend (b : Byte) (s : State) : Result :=
  whenSelected
    (decide (s.cfg.policy = .A)
      && (decide (s.stateClass = .filling) || decide (s.stateClass = .last)))
    (append b s.clearOut)

/-- `A.RETRIGGER` (40 R80): the marker in FULL: `emit snapshot(buf); fillIndex <- 0;
MemWrite(0, 1, b); fillIndex <- 1`, in this order (60_exceptions.md R146 (2)). -/
def execARetrigger (b : Byte) (s : State) : Result :=
  whenSelected
    (decide (s.cfg.policy = .A) && decide (s.stateClass = .full) && decide (b = s.cfg.marker))
    (append b (s.clearOut.emit.setFill 0))

/-- `A.DROP_FULL` (40 R79): a byte other than the marker in FULL is dropped; the Frame is kept. -/
def execADropFull (b : Byte) (s : State) : Result :=
  whenSelected
    (decide (s.cfg.policy = .A) && decide (s.stateClass = .full) && decide (b ≠ s.cfg.marker))
    (.next s.clearOut.noteDrop)

end Sys2Proof.Machine
end

