-- ==== Sys2Proof/Machine/PolicyB.lean ====
section
/-! DEFINITION. The meanings of the Policy B operations (40_frame_assembler.md section 2, R72 to R75),
each under its rule's selection condition. -/

namespace Sys2Proof.Machine

open Sys2Proof

/-- `B.START` (40 R73): the marker in EMPTY is stored at index 0, `fillIndex <- 1`. -/
def execBStart (b : Byte) (s : State) : Result :=
  whenSelected
    (decide (s.cfg.policy = .B) && decide (s.stateClass = .empty) && decide (b = s.cfg.marker))
    (append b s.clearOut)

/-- `B.DROP` (40 R72): a byte other than the marker in EMPTY is dropped. -/
def execBDrop (b : Byte) (s : State) : Result :=
  whenSelected
    (decide (s.cfg.policy = .B) && decide (s.stateClass = .empty) && decide (b ≠ s.cfg.marker))
    (.next s.clearOut.noteDrop)

/-- `B.APPEND` (40 R74): any byte, `0 < fillIndex < FRAME_LENGTH - 1`, is stored at `fillIndex`. -/
def execBAppend (b : Byte) (s : State) : Result :=
  whenSelected
    (decide (s.cfg.policy = .B) && decide (s.stateClass = .filling))
    (append b s.clearOut)

/-- `B.COMPLETE` (40 R75): in LAST, `MemWrite(FRAME_LENGTH - 1, 1, b); fillIndex <- FRAME_LENGTH;
emit snapshot(buf); fillIndex <- 0`, in this order (60_exceptions.md R146 (3)). -/
def execBComplete (b : Byte) (s : State) : Result :=
  whenSelected
    (decide (s.cfg.policy = .B) && decide (s.stateClass = .last))
    (andThen (append b s.clearOut) fun stored => .next (stored.emit.setFill 0))

end Sys2Proof.Machine
end

