-- ==== Sys2Proof/Machine/System.lean ====
section
/-! DEFINITION. The meanings of `RESET` (70_reset_and_hazards.md R170) and `IDLE`
(40_frame_assembler.md R71). -/

namespace Sys2Proof.Machine

open Sys2Proof

/-- `RESET` (70 R170): `fillIndex <- 0; desync_count <- 0`; `buf` is not written (log entry 11);
no Frame, `drop = 0`. -/
def execReset (s : State) : Result := .next s.clearOut.clearRegs

/-- `IDLE` (40 R71): writes no state; no Frame, `drop = 0`. -/
def execIdle (s : State) : Result := .next s.clearOut

end Sys2Proof.Machine
end

