-- ==== Sys2Proof/Machine/Dispatch.lean ====
section
/-! DEFINITION. One arm per operation of spec/opcode_table.json, in the table's order. -/

namespace Sys2Proof.Machine

open Sys2Proof

def exec (i : Instr) (s : State) : Host.Outcome State Fault Refusal :=
  match i with
  | .reset => Sys2Proof.Machine.execReset s
  | .idle => Sys2Proof.Machine.execIdle s
  | .bStart b => Sys2Proof.Machine.execBStart b s
  | .bDrop b => Sys2Proof.Machine.execBDrop b s
  | .bAppend b => Sys2Proof.Machine.execBAppend b s
  | .bComplete b => Sys2Proof.Machine.execBComplete b s
  | .aStart b => Sys2Proof.Machine.execAStart b s
  | .aDropEmpty b => Sys2Proof.Machine.execADropEmpty b s
  | .aAppend b => Sys2Proof.Machine.execAAppend b s
  | .aRetrigger b => Sys2Proof.Machine.execARetrigger b s
  | .aDropFull b => Sys2Proof.Machine.execADropFull b s
  | .accX raw => Sys2Proof.Machine.execAccX raw s
  | .accY raw => Sys2Proof.Machine.execAccY raw s
  | .accZ raw => Sys2Proof.Machine.execAccZ raw s
  | .gyrX raw => Sys2Proof.Machine.execGyrX raw s
  | .gyrY raw => Sys2Proof.Machine.execGyrY raw s
  | .gyrZ raw => Sys2Proof.Machine.execGyrZ raw s
  | .magX raw => Sys2Proof.Machine.execMagX raw s
  | .magY raw => Sys2Proof.Machine.execMagY raw s
  | .magZ raw => Sys2Proof.Machine.execMagZ raw s
  | .baro raw => Sys2Proof.Machine.execBaro raw s
  | .heading raw => Sys2Proof.Machine.execHeading raw s
  | .roll raw => Sys2Proof.Machine.execRoll raw s
  | .pitch raw => Sys2Proof.Machine.execPitch raw s

end Sys2Proof.Machine
end

