-- ==== Sys2Proof/Machine/Event.lean ====
section
/-! DEFINITION. What one input event does: the spec's `step(cfg, s, ev)` (00_scope.md R9,
40_frame_assembler.md R70), the decoder's work in an emitting step included (41 R127). -/

namespace Sys2Proof.Machine

open Sys2Proof

/-- The given instructions, one after another, within one step. -/
def execAll : List Instr → State → Result
  | [], s => .next s
  | i :: is, s => andThen (exec i s) (execAll is)

/-- The decoder on the Frame on `frame_data`, if there is one: its thirteen field instructions, in the
same step (30_encoding.md R65, 41 R127; log entry 8). -/
def sampleOutputs (s : State) : Result :=
  match s.out.frame with
  | none => .next s
  | some F =>
    match frameInstrs F with
    | .ok is => execAll is s
    | .error _ => .fault .frameTooShort

/-- One event, one operation (40 R70): the operation that the event word `w` selects in this state,
then the Sample outputs. Where it selects none, 93 U3 asks for a fault (log entry 7). -/
def stepOn (w : EventWord) (s : State) : Result :=
  match select s.cfg s.stateClass (decodeEvent w) with
  | some i => andThen (exec i s) sampleOutputs
  | none => .fault .bufferOverrun

/-- The word on the inputs when the producer presents nothing: `rst = 0`, `in_valid = 0` (10_state.md
R17; log entry 3). -/
def noEventWord : EventWord := 0#10

/-- The next event is the head of `pending`, or nothing is presented. -/
def stepPending (s : State) : Result :=
  match s.pending with
  | [] => stepOn noEventWord s
  | w :: ws => stepOn w (s.setPending ws)

end Sys2Proof.Machine
end

