-- ==== Sys2Proof/Machine/Step.lean ====
section
/-! DEFINITION. One step of the machine, and the placing of an event where the next step takes it. -/

namespace Sys2Proof.Machine

open Sys2Proof

/-- One step: one event (00_scope.md R9). -/
def step (s : State) : Host.Outcome State Fault Refusal := stepPending s

/-- The state in which the producer presents the word `w` next (log entry 14). `nbits` plays no part:
an event word always has 10 bits. -/
def State.withFetchWord (s : State) (_nbits w : Nat) : State := s.presentNumber w

end Sys2Proof.Machine
end

