-- ==== Sys2Proof/Machine/Run.lean ====
section
/-! DEFINITION. Sequences of events: the observation of a run (70_reset_and_hazards.md R180) and the
pseudo-operation `CHUNK` (30_encoding.md R64, 40_frame_assembler.md R83). -/

namespace Sys2Proof.Machine

open Sys2Proof

/-- The outcome of a sequence of events: the state after the last and the output record of each. -/
abbrev Trace := Host.Outcome (State × List Output) Fault Refusal

/-- The events in order, one step each, with the output record of every step. -/
def runEvents : List EventWord → State → Trace
  | [], s => .next (s, [])
  | w :: ws, s =>
    match stepOn w s with
    | .next s' =>
      match runEvents ws s' with
      | .next (t, outs) => .next (t, s'.out :: outs)
      | .fault e => .fault e
      | .refused e => .refused e
    | .fault e => .fault e
    | .refused e => .refused e

/-- The Frames emitted, in step order (40 R83). -/
def framesOf (outs : List Output) : List Frame := outs.filterMap (·.frame)

/-- The events of a chunk: `FEED` of each byte, in order (30 R64). -/
def chunkEvents (bs : List Byte) : List EventWord := bs.map feedWord

/-- `CHUNK [bytes]` (30 R64): its result is the list of Frames the steps emit (`framesOf`). -/
def chunk (bs : List Byte) (s : State) : Trace := runEvents (chunkEvents bs) s

/-- Chunks one after another, each preceded by a number of `IDLE` events (the time between chunks, 40
R71, R89). -/
def chunks : List (Nat × List Byte) → State → Trace
  | [], s => .next (s, [])
  | (idles, bs) :: cs, s =>
    match runEvents (List.replicate idles noEventWord ++ chunkEvents bs) s with
    | .next (u, outs) =>
      match chunks cs u with
      | .next (t, more) => .next (t, outs ++ more)
      | .fault e => .fault e
      | .refused e => .refused e
    | .fault e => .fault e
    | .refused e => .refused e

end Sys2Proof.Machine
end

