-- ==== Sys2Proof/Machine/Signals.lean ====
section
/-! DEFINITION. The interface signals of 10_state.md R17 to R19 as functions of the state: status outputs
of the state before a step, Frame and Sample outputs of the state after it. -/

namespace Sys2Proof.Machine

open Sys2Proof

/-- `IDX_WIDTH = ceil(log2(FRAME_LENGTH + 1))` (00_scope.md R6): the number of binary digits of
`FRAME_LENGTH`. -/
def idxWidth (cfg : Config) : Nat := if cfg.frameLength = 0 then 0 else Nat.log2 cfg.frameLength + 1

/-- The inputs `rst`, `in_valid`, `in_data` as one event word (30_encoding.md R66). -/
def inputWord (rst inValid : Bool) (data : Byte) : EventWord :=
  BitVec.ofBool rst ++ BitVec.ofBool inValid ++ data

/-- `in_ready`: constant 1 (10_state.md R18). -/
def State.inReady (_ : State) : Bool := true

/-- `frame_valid`: a Frame is emitted in the step (10_state.md R18). -/
def State.frameValid (s : State) : Bool := s.out.frame.isSome

/-- A Frame as one number, byte `i` in the bits `8i+7 : 8i`. -/
def frameNumber : Frame → Nat
  | [] => 0
  | b :: F => b.toNat + 256 * frameNumber F

/-- `frame_data` (10_state.md R18); no value when `frame_valid = 0` (93 U5). -/
def State.frameData (s : State) : Option (BitVec (8 * s.cfg.frameLength)) :=
  s.out.frame.map fun F => BitVec.ofNat (8 * s.cfg.frameLength) (frameNumber F)

/-- `frame_last`: byte `FRAME_LENGTH - 1` of `frame_data` (10_state.md R19). -/
def State.frameLast (s : State) : Option Byte :=
  s.out.frame.bind fun F => F[s.cfg.frameLength - 1]?

/-- `drop` equals `out.dropped` (10_state.md R18). -/
def State.dropSignal (s : State) : Bool := s.out.dropped

/-- `fill_index`: the resting `fillIndex` before the event (10_state.md R19). -/
def State.fillIndexSignal (s : State) : BitVec (idxWidth s.cfg) := BitVec.ofNat _ s.fillIndex

/-- `desync_count`: the counter before the event (10_state.md R19). -/
def State.desyncSignal (s : State) : BitVec s.cfg.diagWidth := BitVec.ofNat _ s.desyncCount

end Sys2Proof.Machine
end

