-- ==== Sys2Proof/Machine/Summary.lean ====
section
/-! DEFINITION. The summaries of the two policies as one function each (40_frame_assembler.md, end of
sections 2 and 3), written from the pseudocode there and not from the operations: a second account
that statements hold the step against. -/

namespace Sys2Proof.Machine

open Sys2Proof

/-- `feedB(b)` (40 section 2, "Summary of Policy B as one function"). -/
def feedB (b : Byte) (s : State) : Result :=
  if s.fillIndex = 0 then
    if b = s.cfg.marker then .next (s.clearOut.store b)
    else .next s.clearOut.noteDrop
  else if (s.store b).fillIndex = s.cfg.frameLength then
    .next (((s.store b).clearOut.setFrame (s.store b).snapshot).setFill 0)
  else .next (s.store b).clearOut

/-- The second `if` of `feedA(b)`: append or drop. -/
def feedAStore (b : Byte) (s : State) : State :=
  if (s.fillIndex = 0 ∧ b = s.cfg.marker) ∨ (0 < s.fillIndex ∧ s.fillIndex < s.cfg.frameLength) then
    s.store b
  else s.noteDrop

/-- `feedA(b)` (40 section 3, "Summary of Policy A as one function"). -/
def feedA (b : Byte) (s : State) : Result :=
  if s.fillIndex = s.cfg.frameLength ∧ b = s.cfg.marker then
    .next (feedAStore b ((s.clearOut.setFrame s.snapshot).setFill 0))
  else .next (feedAStore b s.clearOut)

/-- The summary of the built policy. -/
def feedSummary (b : Byte) (s : State) : Result :=
  match s.cfg.policy with
  | .A => feedA b s
  | .B => feedB b s

end Sys2Proof.Machine
end

