-- ==== Sys2Proof/Safety.lean ====
section
/-! DEFINITION. What holds of every resting state, what a safe step is, and the vocabulary of the
statements about byte streams. -/

namespace Sys2Proof.Machine

open Sys2Proof

/-- The range of the resting cursor: at most `FRAME_LENGTH`, and below it under Policy B (10_state.md
R11, 40_frame_assembler.md R86). -/
def State.cursorOk (s : State) : Prop :=
  match s.cfg.policy with
  | .A => s.fillIndex ≤ s.cfg.frameLength
  | .B => s.fillIndex < s.cfg.frameLength

/-- The invariant of a resting state: the parameters meet R3; the cursor is in range (R11, R86); the
buffer is in canonical form with indices below `FRAME_LENGTH` (20_memory.md R30, R38); the bytes below
the cursor have been written, so that none of them is a free value, and the first is the marker
(10_state.md R12); the counter fits its width
(10_state.md R14). -/
structure State.Inv (s : State) : Prop where
  cfgOk : s.cfg.wf = true
  cursor : s.cursorOk
  canonical : s.buf.wf = true
  inRange : s.buf.below s.cfg.frameLength = true
  written : ∀ i, i < s.fillIndex → (s.buf.lookup i).isSome = true
  marked : 0 < s.fillIndex → s.buf.read 0 = s.cfg.marker
  counter : s.desyncCount < 2 ^ s.cfg.diagWidth

/-- A safe step answers a next state (60_exceptions.md R140). -/
def SafeStep (w : EventWord) (s : State) : Prop := ∃ t, stepOn w s = .next t

/-- The resting part of a state: everything but the outputs of the step that led to it. -/
def State.resting (s : State) : State := s.clearOut

/-- A byte list of a Frame's shape: `FRAME_LENGTH` bytes, the marker first (30_encoding.md R55; the
hypothesis on `Ti` in 40_frame_assembler.md R91). -/
def Framed (cfg : Config) (T : List Byte) : Prop :=
  T.length = cfg.frameLength ∧ T[0]? = some cfg.marker

/-- A gap: no byte equals the marker (40 R91). -/
def Gap (cfg : Config) (g : List Byte) : Prop := ∀ b ∈ g, b ≠ cfg.marker

/-- H1, marker-free payload (40 section 6): no byte after the first equals the marker. -/
def PayloadClean (cfg : Config) (T : List Byte) : Prop := ∀ b ∈ T.drop 1, b ≠ cfg.marker

/-- The stream `T1 g1 T2 g2 ...` of 40 R91. -/
def stream (ts : List (Frame × List Byte)) : List Byte := ts.flatMap fun p => p.1 ++ p.2

/-- The number of bytes in the gaps. -/
def gapBytes (ts : List (Frame × List Byte)) : Nat := (ts.map fun p => p.2.length).sum

/-- `n` saturating increments of the counter. -/
def satIncs (width : Nat) : Nat → Nat → Nat
  | 0, c => c
  | n + 1, c => satIncs width n (satInc width c)

/-- The `frame` outputs of the steps that take `T1 g1 T2 g2 ...` from EMPTY under Policy B: `Ti` in the
step of its last byte (40 R91). -/
def promptFrames (ts : List (Frame × List Byte)) : List (Option Frame) :=
  ts.flatMap fun p =>
    List.replicate (p.1.length - 1) none ++ some p.1 :: List.replicate p.2.length none

/-- The `drop` outputs of the same steps: gap bytes are dropped, Frame bytes are not. -/
def gapDrops (ts : List (Frame × List Byte)) : List Bool :=
  ts.flatMap fun p => List.replicate p.1.length false ++ List.replicate p.2.length true

/-- The `frame` outputs of the steps that take `T1 g1 T2 g2 ...` under Policy A, where `held` is what
the full buffer holds (nothing in EMPTY): each Frame in the step of the next one's first byte (40
R92). -/
def heldFrames : Option Frame → List (Frame × List Byte) → List (Option Frame)
  | _, [] => []
  | held, p :: ts =>
    held :: (List.replicate (p.1.length - 1 + p.2.length) none ++ heldFrames (some p.1) ts)

/-- Two states that differ at most in bytes of `buf` at or beyond the cursor, the stale ones (10_state.md
R21). -/
structure SameButStale (s t : State) : Prop where
  cfg : s.cfg = t.cfg
  fillIndex : s.fillIndex = t.fillIndex
  desyncCount : s.desyncCount = t.desyncCount
  pending : s.pending = t.pending
  out : s.out = t.out
  front : ∀ i, i < s.fillIndex → s.buf.read i = t.buf.read i

/-- The index a step that accepts a byte stores it at: the cursor, or 0 after a re-trigger. -/
def State.storeIndex (s : State) : Nat := if s.fillIndex = s.cfg.frameLength then 0 else s.fillIndex

/-- The rule of a decoder field (41 R113 to R125): its operands are the bytes at `off` (low) and
`off + 1` (high) of the Frame, its instruction is `mk`, and the instruction puts `value` of the signed
16-bit operand on its Sample output, here reached by `put`, and changes nothing else. -/
def FieldRule (off : Nat) (mk : Half → Instr) (put : Option Half → SampleOut → SampleOut)
    (value : Int → Int) : Prop :=
  (∀ (F : Frame) (lo hi : Byte), F[off]? = some lo → F[off + 1]? = some hi →
    frameWord F off = some (hi ++ lo) ∧ decodeField off (hi ++ lo) = .ok (mk (hi ++ lo)) ∧
      field16 F off = some (hi ++ lo).toInt) ∧
  ∀ (raw : Half) (s : State), ∃ v : Half, v.toInt = value raw.toInt ∧
    exec (mk raw) s = .next { s with out := { s.out with sample := put (some v) s.out.sample } }

end Sys2Proof.Machine
end

