-- ==== Sys2Proof/Certificates/Slice0/Obligations.lean ====
section
/-! DEFINITION. The statements for the provers, each from a numbered rule of spec/. -/

open Sys2Proof Sys2Proof.Machine

/-! ## RESET and IDLE -/

/-- 70_reset_and_hazards.md R170: any word with `rst = 1` selects `RESET` in any class; it clears the
cursor and the counter, emits and drops nothing, leaves EMPTY, and twice is the same as once. What `buf`
holds after it the rule leaves unspecified: see `ResetKeepsBuffer`. -/
def Obligations.ResetClearsCursorAndCounter : Prop :=
  ∀ (s : State) (w : EventWord) (cls : StateClass), w.getLsbD 9 = true →
    select s.cfg cls (decodeEvent w) = some .reset ∧
    ∃ t, exec .reset s = .next t ∧ stepOn w s = .next t ∧
      t.fillIndex = 0 ∧ t.desyncCount = 0 ∧ t.stateClass = .empty ∧ t.out.frame = none ∧ t.out.dropped = false ∧
      t.cfg = s.cfg ∧ t.pending = s.pending ∧ exec .reset t = .next t

/-- The model's choice (log entry 11; 92 D25 allows it): `RESET` keeps every byte of `buf`. -/
def Obligations.ResetKeepsBuffer : Prop :=
  ∀ s : State, ∃ t, exec .reset s = .next t ∧ ∀ a, t.buf.read a = s.buf.read a

/-- 70 R172, R22: the state after reset, as `State.reset` and as what a `RESET` event leaves in any
state; and no Frame before `FRAME_LENGTH` `FEED` events under B, `FRAME_LENGTH + 1` under A. -/
def Obligations.ResetStateAndEarliestFrame : Prop :=
  (State.reset.fillIndex = 0 ∧ State.reset.desyncCount = 0 ∧ State.reset.stateClass = .empty ∧
    State.reset.out.frame = none ∧ State.reset.out.dropped = false) ∧
  ∀ (s : State) (bs : List Byte), s.Inv →
    ∃ r, exec .reset s = .next r ∧ r.fillIndex = 0 ∧ r.desyncCount = 0 ∧ r.stateClass = .empty ∧
      r.out.frame = none ∧ r.out.dropped = false ∧ r.cfg = s.cfg ∧
      ∃ t outs, chunk bs r = .next (t, outs) ∧
        (s.cfg.policy = .B → bs.length < s.cfg.frameLength → framesOf outs = []) ∧
        (s.cfg.policy = .A → bs.length < s.cfg.frameLength + 1 → framesOf outs = [])

/-- 40_frame_assembler.md R71: a word with `rst = 0` and `in_valid = 0` selects `IDLE`; it writes no
state; any number of them anywhere changes nothing and puts out nothing. -/
def Obligations.IdleChangesNothing : Prop :=
  (∀ (s : State) (w : EventWord) (cls : StateClass), w.getLsbD 9 = false → w.getLsbD 8 = false →
    select s.cfg cls (decodeEvent w) = some .idle ∧
    ∃ t, exec .idle s = .next t ∧ stepOn w s = .next t ∧ t.resting = s.resting ∧
      t.out.frame = none ∧ t.out.dropped = false) ∧
  ∀ (s : State) (ws : List EventWord), (∀ w ∈ ws, w.getLsbD 9 = false ∧ w.getLsbD 8 = false) →
    ∃ t outs, runEvents ws s = .next (t, outs) ∧ outs.length = ws.length ∧
      (∀ o ∈ outs, o.frame = none ∧ o.dropped = false) ∧ t.resting = s.resting

/-! ## Policy B -/

/-- 40 R73, with its frame. -/
def Obligations.BStartStoresMarker : Prop :=
  ∀ s : State, s.cfg.policy = .B → s.fillIndex = 0 → 82 ≤ s.cfg.frameLength →
    select s.cfg s.stateClass (.feed s.cfg.marker) = some (.bStart s.cfg.marker) ∧
    ∃ t, exec (.bStart s.cfg.marker) s = .next t ∧
      t.buf.read 0 = s.cfg.marker ∧ t.fillIndex = 1 ∧ t.stateClass = .filling ∧
      t.out.frame = none ∧ t.out.dropped = false ∧
      (∀ a, a ≠ 0 → t.buf.read a = s.buf.read a) ∧
      t.desyncCount = s.desyncCount ∧ t.cfg = s.cfg ∧ t.pending = s.pending

/-- 40 R72 with the counter of R70, and its frame: every byte of `buf` and the cursor unchanged. -/
def Obligations.BDropDiscardsByte : Prop :=
  ∀ (s : State) (b : Byte), s.cfg.policy = .B → s.fillIndex = 0 → b ≠ s.cfg.marker →
    select s.cfg s.stateClass (.feed b) = some (.bDrop b) ∧
    ∃ t, exec (.bDrop b) s = .next t ∧
      t.fillIndex = s.fillIndex ∧ t.stateClass = .empty ∧ (∀ a, t.buf.read a = s.buf.read a) ∧
      t.out.frame = none ∧ t.out.dropped = true ∧
      t.desyncCount =
        (if s.desyncCount < 2 ^ s.cfg.diagWidth - 1 then s.desyncCount + 1 else s.desyncCount) ∧
      t.cfg = s.cfg ∧ t.pending = s.pending

/-- 40 R74, with its frame: only the byte at the cursor is stored; any byte, the marker included. -/
def Obligations.BAppendStoresAtCursor : Prop :=
  ∀ (s : State) (b : Byte), s.cfg.policy = .B → 0 < s.fillIndex →
    s.fillIndex < s.cfg.frameLength - 1 →
    select s.cfg s.stateClass (.feed b) = some (.bAppend b) ∧
    ∃ t, exec (.bAppend b) s = .next t ∧
      t.buf.read s.fillIndex = b ∧ t.fillIndex = s.fillIndex + 1 ∧
      (t.stateClass = .filling ∨ t.stateClass = .last) ∧ t.out.frame = none ∧ t.out.dropped = false ∧
      (∀ a, a ≠ s.fillIndex → t.buf.read a = s.buf.read a) ∧
      t.desyncCount = s.desyncCount ∧ t.cfg = s.cfg ∧ t.pending = s.pending

/-- 40 R75, with its frame: the byte is stored at `FRAME_LENGTH - 1`, the Frame is the whole buffer with
that byte last, the cursor goes to 0, and `buf` is not cleared. It holds whatever the bytes below the
cursor are, written or not. -/
def Obligations.BCompleteEmitsFrame : Prop :=
  ∀ (s : State) (b : Byte), s.cfg.policy = .B → 0 < s.fillIndex →
    s.fillIndex = s.cfg.frameLength - 1 →
    select s.cfg s.stateClass (.feed b) = some (.bComplete b) ∧
    ∃ t F, exec (.bComplete b) s = .next t ∧
      t.out.frame = some F ∧ t.out.dropped = false ∧ F.length = s.cfg.frameLength ∧
      (∀ i, i < s.fillIndex → F[i]? = some (s.buf.read i)) ∧ F[s.cfg.frameLength - 1]? = some b ∧
      (s.buf.read 0 = s.cfg.marker → F[0]? = some s.cfg.marker) ∧ t.frameLast = some b ∧
      t.fillIndex = 0 ∧ t.stateClass = .empty ∧
      t.buf.read (s.cfg.frameLength - 1) = b ∧
      (∀ a, a ≠ s.cfg.frameLength - 1 → t.buf.read a = s.buf.read a) ∧
      t.desyncCount = s.desyncCount ∧ t.cfg = s.cfg ∧ t.pending = s.pending

/-! ## Policy A -/

/-- 40 R77, with its frame. -/
def Obligations.AStartStoresMarker : Prop :=
  ∀ s : State, s.cfg.policy = .A → s.fillIndex = 0 → 82 ≤ s.cfg.frameLength →
    select s.cfg s.stateClass (.feed s.cfg.marker) = some (.aStart s.cfg.marker) ∧
    ∃ t, exec (.aStart s.cfg.marker) s = .next t ∧
      t.buf.read 0 = s.cfg.marker ∧ t.fillIndex = 1 ∧ t.stateClass = .filling ∧
      t.out.frame = none ∧ t.out.dropped = false ∧
      (∀ a, a ≠ 0 → t.buf.read a = s.buf.read a) ∧
      t.desyncCount = s.desyncCount ∧ t.cfg = s.cfg ∧ t.pending = s.pending

/-- 40 R76 with the counter of R70, and its frame: every byte of `buf` and the cursor unchanged. -/
def Obligations.ADropEmptyDiscardsByte : Prop :=
  ∀ (s : State) (b : Byte), s.cfg.policy = .A → s.fillIndex = 0 → b ≠ s.cfg.marker →
    select s.cfg s.stateClass (.feed b) = some (.aDropEmpty b) ∧
    ∃ t, exec (.aDropEmpty b) s = .next t ∧
      t.fillIndex = s.fillIndex ∧ t.stateClass = .empty ∧ (∀ a, t.buf.read a = s.buf.read a) ∧
      t.out.frame = none ∧ t.out.dropped = true ∧
      t.desyncCount =
        (if s.desyncCount < 2 ^ s.cfg.diagWidth - 1 then s.desyncCount + 1 else s.desyncCount) ∧
      t.cfg = s.cfg ∧ t.pending = s.pending

/-- 40 R79 with the counter of R70, and its frame: the buffered Frame is kept intact. -/
def Obligations.ADropFullKeepsFrame : Prop :=
  ∀ (s : State) (b : Byte), s.cfg.policy = .A → 0 < s.fillIndex →
    s.fillIndex = s.cfg.frameLength → b ≠ s.cfg.marker →
    select s.cfg s.stateClass (.feed b) = some (.aDropFull b) ∧
    ∃ t, exec (.aDropFull b) s = .next t ∧
      t.fillIndex = s.fillIndex ∧ t.stateClass = .full ∧ (∀ a, t.buf.read a = s.buf.read a) ∧
      t.snapshot = s.snapshot ∧ t.out.frame = none ∧ t.out.dropped = true ∧
      t.desyncCount =
        (if s.desyncCount < 2 ^ s.cfg.diagWidth - 1 then s.desyncCount + 1 else s.desyncCount) ∧
      t.cfg = s.cfg ∧ t.pending = s.pending

/-- 40 R78, with its frame: nothing is emitted even when the buffer becomes full; from LAST the class
becomes FULL. -/
def Obligations.AAppendStoresAtCursor : Prop :=
  ∀ (s : State) (b : Byte), s.cfg.policy = .A → 0 < s.fillIndex →
    s.fillIndex < s.cfg.frameLength →
    select s.cfg s.stateClass (.feed b) = some (.aAppend b) ∧
    ∃ t, exec (.aAppend b) s = .next t ∧
      t.buf.read s.fillIndex = b ∧ t.fillIndex = s.fillIndex + 1 ∧
      (if s.fillIndex = s.cfg.frameLength - 1 then t.stateClass = .full
        else t.stateClass = .filling ∨ t.stateClass = .last) ∧
      t.out.frame = none ∧ t.out.dropped = false ∧
      (∀ a, a ≠ s.fillIndex → t.buf.read a = s.buf.read a) ∧
      t.desyncCount = s.desyncCount ∧ t.cfg = s.cfg ∧ t.pending = s.pending

/-- 40 R80, with its frame: the Frame is the buffer before the step, the marker becomes byte 0 of the
next, the cursor is 1; where byte 0 was the marker, as it is in every resting state, `buf` is
unchanged. -/
def Obligations.ARetriggerEmitsAndRestarts : Prop :=
  ∀ s : State, s.cfg.policy = .A → s.fillIndex = s.cfg.frameLength → 82 ≤ s.cfg.frameLength →
    select s.cfg s.stateClass (.feed s.cfg.marker) = some (.aRetrigger s.cfg.marker) ∧
    ∃ t F, exec (.aRetrigger s.cfg.marker) s = .next t ∧
      t.out.frame = some F ∧ t.out.dropped = false ∧ F.length = s.cfg.frameLength ∧
      (∀ i, i < s.cfg.frameLength → F[i]? = some (s.buf.read i)) ∧
      t.fillIndex = 1 ∧ t.stateClass = .filling ∧ t.buf.read 0 = s.cfg.marker ∧
      (∀ a, a ≠ 0 → t.buf.read a = s.buf.read a) ∧
      (s.buf.read 0 = s.cfg.marker →
        F[0]? = some s.cfg.marker ∧ ∀ a, t.buf.read a = s.buf.read a) ∧
      t.desyncCount = s.desyncCount ∧ t.cfg = s.cfg ∧ t.pending = s.pending

/-- The model's own choice (log entries 5 and 8): `RESET`, `IDLE` and the nine `FEED` operations put no
value on the Sample outputs; in an emitting step the decoder's instructions, which follow, do. -/
def Obligations.AssemblerLeavesSampleAbsent : Prop :=
  ∀ (s t : State) (i : Instr) (w : EventWord), encode i = .event w → exec i s = .next t →
    t.out.sample = SampleOut.absent

/-- The model's own choice (log entry 6): an assembler operation executed where its rule does not select
it stops with the fault `notSelected` and nothing else. -/
def Obligations.OperationsStopWhereNotSelected : Prop :=
  ∀ (s : State) (b : Byte) (i : Instr), encode i = .event (feedWord b) →
    (i.wf s.cfg && i.classOk s.stateClass) = false → exec i s = .fault .notSelected

/-! ## The decoder's fields -/

/-- 41_telemetry_decoder.md R113, R114, R115. -/
def Obligations.AccelerometerFields : Prop :=
  FieldRule 2 .accX (fun v o => { o with accX := v }) (fun a => a) ∧
  FieldRule 4 .accY (fun v o => { o with accY := v }) (fun a => a) ∧
  FieldRule 6 .accZ (fun v o => { o with accZ := v }) (fun a => a)

/-- 41 R116, R117, R118. -/
def Obligations.GyroFields : Prop :=
  FieldRule 8 .gyrX (fun v o => { o with gyrX := v }) (fun a => a) ∧
  FieldRule 10 .gyrY (fun v o => { o with gyrY := v }) (fun a => a) ∧
  FieldRule 12 .gyrZ (fun v o => { o with gyrZ := v }) (fun a => a)

/-- 41 R119, R120, R121: divided by 3, truncating toward zero, in the range -10922 to 10922. -/
def Obligations.MagnetometerFields : Prop :=
  FieldRule 14 .magX (fun v o => { o with magX := v }) (fun a => tdiv a 3) ∧
  FieldRule 16 .magY (fun v o => { o with magY := v }) (fun a => tdiv a 3) ∧
  FieldRule 18 .magZ (fun v o => { o with magZ := v }) (fun a => tdiv a 3) ∧
  (∀ raw : Half, -10922 ≤ tdiv raw.toInt 3 ∧ tdiv raw.toInt 3 ≤ 10922 ∧
    (tdiv raw.toInt 3 = 0 ↔ -2 ≤ raw.toInt ∧ raw.toInt ≤ 2))

/-- 41 R122, R123: signed, no post-processing. -/
def Obligations.BarometerAndHeadingFields : Prop :=
  FieldRule 20 .baro (fun v o => { o with baro := v }) (fun a => a) ∧
  FieldRule 22 .heading (fun v o => { o with heading := v }) (fun a => a)

/-- 41 R124, R125: divided by 10, truncating toward zero, in the range -3276 to 3276. -/
def Obligations.AngleFields : Prop :=
  FieldRule 78 .roll (fun v o => { o with roll := v }) (fun a => tdiv a 10) ∧
  FieldRule 80 .pitch (fun v o => { o with pitch := v }) (fun a => tdiv a 10) ∧
  (∀ raw : Half, -3276 ≤ tdiv raw.toInt 10 ∧ tdiv raw.toInt 10 ≤ 3276 ∧
    (tdiv raw.toInt 10 = 0 ↔ -9 ≤ raw.toInt ∧ raw.toInt ≤ 9))

/-- 41 R111: `hi * 256 + lo` with the high byte signed and the low byte not, for every offset whose pair
lies in the Frame; in the 16-bit range. -/
def Obligations.Field16IsSignedLittleEndian : Prop :=
  ∀ (F : Frame) (off : Nat), off + 1 < F.length →
    ∃ lo hi v, F[off]? = some lo ∧ F[off + 1]? = some hi ∧ field16 F off = some v ∧
      v = hi.toInt * 256 + (lo.toNat : Int) ∧ v = (hi ++ lo).toInt ∧ -32768 ≤ v ∧ v ≤ 32767

/-- 41 R112 and 00_scope.md section 7: `tdiv` by 3 and by 10 is `sign(a) * floor(|a| / d)`, the quotient
whose remainder is below `d` in size and zero or of the sign of `a`; it never exceeds `a` in size. -/
def Obligations.DivisionTruncatesTowardZero : Prop :=
  ∀ (a d : Int), -32768 ≤ a → a ≤ 32767 → (d = 3 ∨ d = 10) →
    tdiv a d = a.sign * ((a.natAbs / d.natAbs : Nat) : Int) ∧
    (tdiv a d).natAbs ≤ a.natAbs ∧
    ∀ q r : Int, a = q * d + r → r.natAbs < d.natAbs → (0 ≤ a → 0 ≤ r) → (a ≤ 0 → r ≤ 0) →
      q = tdiv a d

/-- 41 R110: `decode` is total over every Frame of at least 82 bytes and does not read byte 0; its value
is the thirteen formulas of the summary. -/
def Obligations.DecodeTotalWithoutMarkerCheck : Prop :=
  ∀ F : Frame, 82 ≤ F.length →
    ∃ x, decodeSample F = some x ∧ (∀ b : Byte, decodeSample (F.set 0 b) = some x) ∧
      some x.accX = field16 F 2 ∧ some x.accY = field16 F 4 ∧ some x.accZ = field16 F 6 ∧
      some x.gyrX = field16 F 8 ∧ some x.gyrY = field16 F 10 ∧ some x.gyrZ = field16 F 12 ∧
      some x.magX = (field16 F 14).map (tdiv · 3) ∧ some x.magY = (field16 F 16).map (tdiv · 3) ∧
      some x.magZ = (field16 F 18).map (tdiv · 3) ∧ some x.baro = field16 F 20 ∧
      some x.heading = field16 F 22 ∧ some x.roll = (field16 F 78).map (tdiv · 10) ∧
      some x.pitch = (field16 F 80).map (tdiv · 10)

/-- 41 R126: the Sample depends on the bytes at offsets 2 to 23 and 78 to 81 alone. -/
def Obligations.DecodeIgnoresUnassignedBytes : Prop :=
  ∀ F G : Frame, (∀ i, (2 ≤ i ∧ i ≤ 23) ∨ (78 ≤ i ∧ i ≤ 81) → F[i]? = G[i]?) →
    decodeSample F = decodeSample G

/-- 41 R128: ranges of every member and its 16-bit output read back; the round trip of a value stored
low byte first, and of scaled values. -/
def Obligations.SampleRangesAndRoundTrip : Prop :=
  (∀ (F : Frame) (x : Sample), decodeSample F = some x →
    (∀ v ∈ [x.accX, x.accY, x.accZ, x.gyrX, x.gyrY, x.gyrZ, x.baro, x.heading],
      -32768 ≤ v ∧ v ≤ 32767 ∧ (narrow16 v).toInt = v) ∧
    (∀ v ∈ [x.magX, x.magY, x.magZ], -10922 ≤ v ∧ v ≤ 10922 ∧ (narrow16 v).toInt = v) ∧
    (∀ v ∈ [x.roll, x.pitch], -3276 ≤ v ∧ v ≤ 3276 ∧ (narrow16 v).toInt = v)) ∧
  (∀ (F : Frame) (off : Nat) (v : Int), -32768 ≤ v → v ≤ 32767 →
    F[off]? = some (BitVec.ofNat 8 ((v % 65536).toNat % 256)) →
    F[off + 1]? = some (BitVec.ofNat 8 ((v % 65536).toNat / 256)) → field16 F off = some v) ∧
  (∀ m : Int, -10922 ≤ m → m ≤ 10922 → tdiv (3 * m) 3 = m) ∧
  (∀ a : Int, -3276 ≤ a → a ≤ 3276 → tdiv (10 * a) 10 = a)

/-! ## Events, selection, encoding -/

/-- 30_encoding.md R50, 10_state.md R17, 60_exceptions.md R146 (1): `rst` overrides, then `in_valid`. -/
def Obligations.InputSignalsGiveEvent : Prop :=
  ∀ (rst inValid : Bool) (data : Byte),
    decodeEvent (inputWord rst inValid data) =
      if rst = true then .reset else if inValid = true then .feed data else .idle

/-- 30 R53, R54, R61: for every byte in every class but those of 93 U3 exactly one operation is
selected, and it is the one whose policy, state class and byte class hold. -/
def Obligations.SelectionIsExhaustiveAndExclusive : Prop :=
  ∀ (cfg : Config) (cls : StateClass) (b : Byte),
    (∀ i, select cfg cls (.feed b) = some i ↔
      encode i = .event (feedWord b) ∧ i.wf cfg = true ∧ i.classOk cls = true) ∧
    (cls ≠ .overrun → (cls = .full → cfg.policy = .A) → ∃ i, select cfg cls (.feed b) = some i)

/-- Decode and encode agree, for all instructions and every operand: decoding the encoding of an
instruction the block can select gives it back, and what decoding gives is well formed, selectable in
the class, and encoded as it was found, but for the bits that `RESET` and `IDLE` ignore (30 R50). -/
def Obligations.DecodeAndEncodeAgree : Prop :=
  (∀ (cfg : Config) (cls : StateClass) (i : Instr), i.wf cfg = true → i.classOk cls = true →
    decode cfg cls (encode i) = .ok i) ∧
  (∀ (cfg : Config) (cls : StateClass) (e : Encoding) (i : Instr), decode cfg cls e = .ok i →
    i.wf cfg = true ∧ i.classOk cls = true ∧
    (encode i = e ∨ ∃ w, e = .event w ∧
      ((i = .reset ∧ w.getLsbD 9 = true) ∨
        (i = .idle ∧ w.getLsbD 9 = false ∧ w.getLsbD 8 = false))))

/-- Words written out from 30 R66 and the table, and what they decode to in a block of the spec's own
parameters; and a Frame's byte pair. -/
def Obligations.SpecWordsDecode : Prop :=
  decodeTableWord 16 0b1000000000 = some .reset ∧
  decodeTableWord 16 0b1101001101 = some .reset ∧
  decodeTableWord 16 0b0001001101 = some .idle ∧
  decodeTableWord 16 0b0101001101 = some (.bStart 0x4D#8) ∧
  decodeTableWord 16 0b0101001100 = some (.bDrop 0x4C#8) ∧
  decode Config.spec .filling (.event 0b0101001101#10) = .ok (.bAppend 0x4D#8) ∧
  decode Config.spec .last (.event 0b0111111111#10) = .ok (.bComplete 0xFF#8) ∧
  decode { Config.spec with policy := .A } .full (.event 0b0101001101#10)
    = .ok (.aRetrigger 0x4D#8) ∧
  frameWord [0x4D#8, 0x00#8, 0x34#8, 0x12#8] 2 = some 0x1234#16 ∧
  decode Config.spec .empty (.frame16 2 0x1234#16) = .ok (.accX 0x1234#16)

/-- A step runs the decoded instruction: the head of `pending` is taken off, the instruction it decodes
to is executed, then the decoder works on an emitted Frame, one field instruction after another; with
nothing pending the instruction is `IDLE` (40 R70; log entries 3 and 8). -/
def Obligations.StepRunsDecodedInstruction : Prop :=
  (∀ (s : State) (w : EventWord) (ws : List EventWord) (i : Instr), s.pending = w :: ws →
    decode s.cfg s.stateClass (.event w) = .ok i →
    step s = andThen (exec i { s with pending := ws }) sampleOutputs) ∧
  (∀ s : State, s.pending = [] → step s = andThen (exec .idle s) sampleOutputs) ∧
  (∀ s : State, s.out.frame = none → sampleOutputs s = .next s) ∧
  (∀ (s : State) (F : Frame) (is : List Instr), s.out.frame = some F → frameInstrs F = .ok is →
    sampleOutputs s = is.foldl (fun r i => andThen r (exec i)) (.next s))

/-! ## Every step -/

/-- 20_memory.md R38, 40 R86, 10_state.md R11, R12: every step keeps the invariant of a resting state. -/
def Obligations.StepKeepsInvariant : Prop :=
  ∀ s t : State, s.Inv → step s = .next t → t.Inv

/-- The state after reset meets the invariant. -/
def Obligations.ResetMeetsInvariant : Prop := State.reset.Inv

/-- 60_exceptions.md R140: from every state that meets the invariant, every event gives a next state,
never a fault and never a refusal. -/
def Obligations.StepNeverStops : Prop :=
  ∀ s : State, s.Inv → (∀ w : EventWord, ∃ t, stepOn w s = .next t) ∧ ∃ t, step s = .next t

/-- 00_scope.md R8: no event changes a parameter. -/
def Obligations.ParametersNeverChange : Prop :=
  ∀ s t : State, step s = .next t → t.cfg = s.cfg ∧ t.pending = s.pending.tail

/-- 20 R31: a step writes at most one byte, the byte of a `FEED`, at the cursor (0 after a re-trigger),
below `FRAME_LENGTH`, and moves the cursor past it: by one, or to 0 when the Frame is complete. -/
def Obligations.StepStoresOnlyAtCursor : Prop :=
  ∀ (w : EventWord) (s t : State) (a : Nat), stepOn w s = .next t →
    t.buf.read a ≠ s.buf.read a →
    ∃ b, decodeEvent w = .feed b ∧ a = s.storeIndex ∧ a < s.cfg.frameLength ∧
      t.buf.read a = b ∧
      (t.fillIndex = a + 1 ∨ (a + 1 = s.cfg.frameLength ∧ t.fillIndex = 0))

/-- 10_state.md R10: in every state `buf` is an array of exactly `FRAME_LENGTH` bytes, with the indices 0
to `FRAME_LENGTH - 1`, and no step changes its capacity. Only the six append operations write it, one
byte in a step, at the cursor (0 after a re-trigger). It is read only by the snapshot of an emission:
that is the whole array, and a step that emits no Frame goes the same way whatever `buf` holds. -/
def Obligations.BufferIsArrayOfFrameLengthBytes : Prop :=
  (∀ s : State, s.snapshot.length = s.cfg.frameLength ∧ (∀ i, s.snapshot[i]? = s.bufByte i) ∧
    ∀ i, (s.bufByte i).isSome = true ↔ i < s.cfg.frameLength) ∧
  ∀ (w : EventWord) (s t : State), stepOn w s = .next t →
    (∀ i, (t.bufByte i).isSome = (s.bufByte i).isSome) ∧
    (∀ i, t.bufByte i ≠ s.bufByte i → i = s.storeIndex ∧
      ∃ b op, decodeEvent w = .feed b ∧ t.bufByte i = some b ∧
        select s.cfg s.stateClass (.feed b) = some op ∧
        op ∈ [.bStart b, .bAppend b, .bComplete b, .aStart b, .aAppend b, .aRetrigger b]) ∧
    (t.out.frame = none → ∀ m : Memory, ∃ m' : Memory,
      stepOn w { s with buf := m } = .next { t with buf := m' })

/-- 10_state.md R14: the counter rises by one, saturating, in every step that drops, is cleared by
`RESET` only, stays below `2 ^ DIAG_WIDTH`, and no other result of a step depends on it. -/
def Obligations.CounterCountsDrops : Prop :=
  (∀ (w : EventWord) (s t : State), stepOn w s = .next t →
    t.desyncCount =
      if decodeEvent w = .reset then 0
      else if t.out.dropped = true ∧ s.desyncCount < 2 ^ s.cfg.diagWidth - 1 then s.desyncCount + 1
      else s.desyncCount) ∧
  (∀ (w : EventWord) (s t : State), stepOn w s = .next t →
    s.desyncCount < 2 ^ s.cfg.diagWidth → t.desyncCount < 2 ^ t.cfg.diagWidth) ∧
  (∀ (w : EventWord) (s t : State) (c : Nat), stepOn w s = .next t →
    ∃ c', stepOn w { s with desyncCount := c } = .next { t with desyncCount := c' })

/-- 60_exceptions.md R141: a step drops exactly when it is `FEED` of a byte other than the marker in
EMPTY, or under Policy A in FULL; `buf` and the cursor are then unchanged and the counter rises,
saturating; and every non-dropping step but `RESET` leaves the counter. -/
def Obligations.DesyncErrorCauseAndEffect : Prop :=
  ∀ (w : EventWord) (s t : State), stepOn w s = .next t →
    (t.out.dropped = true ↔
      ∃ b, decodeEvent w = .feed b ∧ b ≠ s.cfg.marker ∧
        (s.stateClass = .empty ∨ (s.cfg.policy = .A ∧ s.stateClass = .full))) ∧
    (t.out.dropped = true →
      t.buf = s.buf ∧ t.fillIndex = s.fillIndex ∧ t.out.frame = none ∧
      t.desyncCount = min (s.desyncCount + 1) (max s.desyncCount (2 ^ s.cfg.diagWidth - 1))) ∧
    (t.out.dropped = false → decodeEvent w ≠ .reset → t.desyncCount = s.desyncCount)

/-- 40 R84, 60 R145: a Frame is emitted by `B.COMPLETE` and `A.RETRIGGER` only, one a step, never in a
step that drops; after it the cursor is 0 or 1. -/
def Obligations.EmissionOnlyAtCompletionOrRetrigger : Prop :=
  ∀ (w : EventWord) (s t : State) (F : Frame), stepOn w s = .next t → t.out.frame = some F →
    t.out.dropped = false ∧
    ∃ b, decodeEvent w = .feed b ∧
      ((s.cfg.policy = .B ∧ s.stateClass = .last ∧
          select s.cfg s.stateClass (decodeEvent w) = some (.bComplete b) ∧ t.fillIndex = 0) ∨
        (s.cfg.policy = .A ∧ s.stateClass = .full ∧
          select s.cfg s.stateClass (decodeEvent w) = some (.aRetrigger b) ∧ t.fillIndex = 1))

/-- 40 R90, 30 R55: every emitted Frame begins with the marker and has `FRAME_LENGTH` bytes. -/
def Obligations.EmittedFrameBeginsWithMarker : Prop :=
  ∀ (w : EventWord) (s t : State) (F : Frame), s.Inv → stepOn w s = .next t →
    t.out.frame = some F → F[0]? = some s.cfg.marker ∧ F.length = s.cfg.frameLength

/-- 41 R127: in a step that emits a Frame the thirteen Sample outputs are `decode` of that Frame. That
they are absent in every other step is the model's choice (log entry 5; 93 U5): the rule leaves them
unspecified there. -/
def Obligations.SampleOutputsAreDecodedFrame : Prop :=
  ∀ (w : EventWord) (s t : State), stepOn w s = .next t →
    (t.out.frame = none → t.out.sample = SampleOut.absent) ∧
    ∀ F, t.out.frame = some F → ∃ x, decodeSample F = some x ∧ t.out.sample = x.outputs

/-- 40 R85: every edge of the state machine. -/
def Obligations.StateMachineEdges : Prop :=
  ∀ (w : EventWord) (s : State), s.Inv → ∃ t, stepOn w s = .next t ∧
    match decodeEvent w with
    | .reset => t.stateClass = .empty
    | .idle => t.stateClass = s.stateClass ∧ t.fillIndex = s.fillIndex
    | .feed b =>
      match s.stateClass with
      | .empty =>
        if b = s.cfg.marker then t.stateClass = .filling ∧ t.fillIndex = 1 ∧ t.out.frame = none
        else t.stateClass = .empty ∧ t.out.frame = none
      | .filling =>
        (t.stateClass = .filling ∨ t.stateClass = .last) ∧ t.fillIndex = s.fillIndex + 1 ∧
          t.out.frame = none
      | .last =>
        match s.cfg.policy with
        | .A => t.stateClass = .full ∧ t.out.frame = none
        | .B => t.stateClass = .empty ∧ t.out.frame.isSome = true
      | .full =>
        if b = s.cfg.marker then
          t.stateClass = .filling ∧ t.fillIndex = 1 ∧ t.out.frame.isSome = true
        else t.stateClass = .full ∧ t.out.frame = none
      | .overrun => False

/-- The step on a `FEED` is the summary function of the built policy (40 sections 2 and 3), followed by
the decoder, in every state that meets the invariant. -/
def Obligations.StepRefinesPolicySummary : Prop :=
  ∀ (s : State) (b : Byte), s.Inv →
    stepOn (feedWord b) s = andThen (feedSummary b s) sampleOutputs

/-- 93 U3: a `FEED` in FULL under Policy B, or beyond `FRAME_LENGTH`, is a fault (log entry 7). -/
def Obligations.FeedBeyondCapacityFaults : Prop :=
  ∀ (s : State) (b : Byte), 0 < s.fillIndex →
    (s.cfg.frameLength < s.fillIndex ∨ (s.cfg.policy = .B ∧ s.fillIndex = s.cfg.frameLength)) →
    stepOn (feedWord b) s = .fault .bufferOverrun

/-! ## Streams of bytes -/

/-- 40 R83: a chunk gives its Frames in step order, at most `ceil(n / FRAME_LENGTH)` for `n` bytes, so
at most one for fewer than `FRAME_LENGTH`: two emissions lie `FRAME_LENGTH` steps apart or more. -/
def Obligations.ChunkEmissionBound : Prop :=
  ∀ (s : State) (bs : List Byte), s.Inv →
    ∃ t outs, chunk bs s = .next (t, outs) ∧ outs.length = bs.length ∧
      (framesOf outs).length ≤ (bs.length + s.cfg.frameLength - 1) / s.cfg.frameLength ∧
      (bs.length ≤ s.cfg.frameLength → (framesOf outs).length ≤ 1)

/-- 40 R89: the Frames and the resting state after a stream do not depend on how its bytes were grouped
into chunks nor on the `IDLE` events between them. -/
def Obligations.ChunkingIndependence : Prop :=
  ∀ (s t : State) (cs : List (Nat × List Byte)) (outs : List Output),
    chunk (cs.flatMap fun c => c.2) s = .next (t, outs) →
    ∃ t' outs', chunks cs s = .next (t', outs') ∧ t'.resting = t.resting ∧
      framesOf outs' = framesOf outs

/-- 70 R173, 10_state.md R21: two states that differ only in stale bytes of `buf` put out the same
records on every sequence of events, and still differ only in stale bytes after it. -/
def Obligations.StaleBytesNeverReachOutput : Prop :=
  ∀ (ws : List EventWord) (s s' t : State) (outs : List Output), SameButStale s s' →
    runEvents ws s = .next (t, outs) →
    ∃ t', runEvents ws s' = .next (t', outs) ∧ SameButStale t t'

/-- 20 R34: from EMPTY, the first accepted byte, the marker, is stored at index 0 and the `k`-th accepted
byte after it at index `k`, and the cursor counts them. -/
def Obligations.StreamOrderIsIndexOrder : Prop :=
  ∀ (s : State) (bs : List Byte), s.Inv → s.fillIndex = 0 → bs[0]? = some s.cfg.marker →
    bs.length < s.cfg.frameLength →
    ∃ t outs, chunk bs s = .next (t, outs) ∧ t.fillIndex = bs.length ∧
      (∀ i, i < bs.length → bs[i]? = some (t.buf.read i)) ∧ framesOf outs = [] ∧
      (∀ o ∈ outs, o.dropped = false)

/-- 40 R91: aligned streams under Policy B. -/
def Obligations.AlignedStreamPolicyB : Prop :=
  ∀ (s : State) (ts : List (Frame × List Byte)), s.Inv → s.cfg.policy = .B → s.fillIndex = 0 →
    (∀ p ∈ ts, Framed s.cfg p.1 ∧ Gap s.cfg p.2) →
    ∃ t outs, chunk (stream ts) s = .next (t, outs) ∧ t.fillIndex = 0 ∧
      framesOf outs = ts.map (fun p => p.1) ∧
      outs.map (fun o => o.frame) = promptFrames ts ∧
      outs.map (fun o => o.dropped) = gapDrops ts ∧
      t.desyncCount = satIncs s.cfg.diagWidth (gapBytes ts) s.desyncCount

/-- 40 R92: aligned streams under Policy A, from EMPTY and from FULL: every Frame one marker late, the
last one held. -/
def Obligations.AlignedStreamPolicyA : Prop :=
  ∀ (s : State) (ts : List (Frame × List Byte)) (held : Option Frame), s.Inv →
    s.cfg.policy = .A →
    (s.fillIndex = 0 ∧ held = none ∨ s.fillIndex = s.cfg.frameLength ∧ held = some s.snapshot) →
    (∀ p ∈ ts, Framed s.cfg p.1 ∧ Gap s.cfg p.2) → ts ≠ [] →
    ∃ t outs, chunk (stream ts) s = .next (t, outs) ∧
      t.fillIndex = s.cfg.frameLength ∧ some t.snapshot = (ts.map (fun p => p.1)).getLast? ∧
      framesOf outs = held.toList ++ (ts.map (fun p => p.1)).dropLast ∧
      outs.map (fun o => o.frame) = heldFrames held ts ∧
      outs.map (fun o => o.dropped) = gapDrops ts ∧
      t.desyncCount = satIncs s.cfg.diagWidth (gapBytes ts) s.desyncCount

/-- 40 R94: from a cursor `f > 0` the next `FRAME_LENGTH - f` `FEED` events, whatever their bytes, bring
Policy B to EMPTY with exactly one emission, at the last of them, of the old front and these bytes; and
Policy A, below FULL, to FULL holding the same with no emission. -/
def Obligations.BoundedReturn : Prop :=
  ∀ (s : State) (bs : List Byte) (old : Frame), s.Inv → 0 < s.fillIndex →
    s.fillIndex < s.cfg.frameLength → s.buf.readRange 0 s.fillIndex = old →
    bs.length = s.cfg.frameLength - s.fillIndex →
    ∃ t outs, chunk bs s = .next (t, outs) ∧
      match s.cfg.policy with
      | .A => t.fillIndex = s.cfg.frameLength ∧ t.snapshot = old ++ bs ∧
          outs.map (fun o => o.frame) = List.replicate bs.length none
      | .B => t.fillIndex = 0 ∧
          outs.map (fun o => o.frame)
            = List.replicate (bs.length - 1) none ++ [some (old ++ bs)]

/-- 40 R88, FILLING, Policy B, under H0 and H1: one false Frame, made of the old front and the head of
`T1`; `T1` is lost; `T2, T3, ...` are emitted exactly and the assembler ends EMPTY. -/
def Obligations.RecoveryPolicyB : Prop :=
  ∀ (s : State) (T : Frame) (g : List Byte) (ts : List (Frame × List Byte)) (old : Frame), s.Inv →
    s.cfg.policy = .B → 0 < s.fillIndex → s.buf.readRange 0 s.fillIndex = old →
    (∀ p ∈ (T, g) :: ts, Framed s.cfg p.1 ∧ Gap s.cfg p.2 ∧ PayloadClean s.cfg p.1) →
    ∃ t outs, chunk (stream ((T, g) :: ts)) s = .next (t, outs) ∧ t.fillIndex = 0 ∧
      framesOf outs =
        (old ++ T.take (s.cfg.frameLength - s.fillIndex)) :: ts.map (fun p => p.1)

/-- 40 R88, FILLING, Policy A, under H0 and H1: the false Frame, then `T2, T3, ...`, each one marker
late; the last of them is held. -/
def Obligations.RecoveryPolicyA : Prop :=
  ∀ (s : State) (T : Frame) (g : List Byte) (ts : List (Frame × List Byte)) (old : Frame), s.Inv →
    s.cfg.policy = .A → 0 < s.fillIndex → s.fillIndex < s.cfg.frameLength →
    s.buf.readRange 0 s.fillIndex = old →
    (∀ p ∈ (T, g) :: ts, Framed s.cfg p.1 ∧ Gap s.cfg p.2 ∧ PayloadClean s.cfg p.1) →
    ∃ t outs, chunk (stream ((T, g) :: ts)) s = .next (t, outs) ∧
      t.fillIndex = s.cfg.frameLength ∧
      framesOf outs ++ [t.snapshot] =
        (old ++ T.take (s.cfg.frameLength - s.fillIndex)) :: ts.map (fun p => p.1)

/-- 40 R95: without H1 synchronisation can be lost for ever. A stream of one Frame `K` whose byte at
offset `q` equals the marker, entered at an offset `p` of it, gives for ever the tail of one `K` and the
head of the next. -/
def Obligations.FalseLockNeverEnds : Prop :=
  ∀ (s : State) (K : Frame) (p q n : Nat) (held : Option Frame), s.Inv → Framed s.cfg K →
    1 ≤ p → p ≤ q → q < s.cfg.frameLength → K[q]? = some s.cfg.marker →
    (∀ i, p ≤ i → i < q → K[i]? ≠ some s.cfg.marker) →
    (s.fillIndex = 0 ∧ held = none ∨
      s.cfg.policy = .A ∧ s.fillIndex = s.cfg.frameLength ∧ held = some s.snapshot) →
    ∃ t outs, chunk (K.drop p ++ (List.replicate n K).flatten) s = .next (t, outs) ∧
      t.fillIndex = s.cfg.frameLength - q ∧
      framesOf outs = held.toList ++ List.replicate n (K.drop q ++ K.take q)

/-- 40 R96: the bytes of one valid Frame yield exactly one Frame under Policy B, from every state, and it
is the valid one where the state is EMPTY; under Policy A none from EMPTY, and the held one from FULL. -/
def Obligations.OneFrameFromOneValidFrame : Prop :=
  ∀ (s : State) (T : Frame), s.Inv → Framed s.cfg T →
    ∃ t outs, chunk T s = .next (t, outs) ∧
      match s.cfg.policy with
      | .B => ∃ F, framesOf outs = [F] ∧ (s.fillIndex = 0 → F = T ∧ t.fillIndex = 0)
      | .A => (s.fillIndex = 0 → framesOf outs = [] ∧ t.snapshot = T) ∧
          (s.fillIndex = s.cfg.frameLength →
            framesOf outs = [s.snapshot] ∧ t.snapshot = T)

/-! ## Signals -/

/-- 00_scope.md R6: `IDX_WIDTH = ceil(log2(FRAME_LENGTH + 1))`, the least width that holds every value of
the cursor; 8 for both observed lengths; and the width of `desync_count` is `DIAG_WIDTH`. -/
def Obligations.CursorWidthIsCeilLog : Prop :=
  (∀ (cfg : Config) (width : Nat), cfg.frameLength + 1 ≤ 2 ^ width ↔ idxWidth cfg ≤ width) ∧
  idxWidth { Config.spec with frameLength := 154 } = 8 ∧
  idxWidth { Config.spec with frameLength := 155 } = 8

/-- 10_state.md R18: `in_ready` is 1; `frame_valid` is 1 exactly when a Frame is put out; then byte `i`
of it is `frame_data[8i+7 : 8i]`; `drop` is `out.dropped`. That `frame_data` has no value otherwise is
the model's choice (log entry 5; 93 U5): the rule leaves it unspecified there. -/
def Obligations.FrameDataSignal : Prop :=
  ∀ s : State, s.inReady = true ∧ (s.frameValid = true ↔ s.out.frame ≠ none) ∧
    s.dropSignal = s.out.dropped ∧ (s.out.frame = none → s.frameData = none) ∧
    ∀ F, s.out.frame = some F → F.length = s.cfg.frameLength →
      ∃ d, s.frameData = some d ∧
        ∀ i, i < s.cfg.frameLength → F[i]? = some (d.extractLsb' (8 * i) 8)

/-- 10_state.md R19, 00_scope.md R6: the status outputs carry the cursor and the counter without loss,
and `frame_last` is the last byte of the Frame. -/
def Obligations.StatusSignals : Prop :=
  ∀ s : State, s.Inv →
    s.fillIndexSignal.toNat = s.fillIndex ∧ s.desyncSignal.toNat = s.desyncCount ∧
    ∀ F, s.out.frame = some F → F.length = s.cfg.frameLength → s.frameLast = F.getLast?
end

