-- ==== Sys2Proof/Laws/State.lean ====
section
/-! SUPPORT. One lemma per field per update of the state, each true by rfl, so that no proof unfolds a
record update. -/

namespace Sys2Proof.Machine

open Sys2Proof

variable (s : State)

@[simp] theorem State.clearOut_cfg : (s.clearOut).cfg = s.cfg := rfl
@[simp] theorem State.clearOut_buf : (s.clearOut).buf = s.buf := rfl
@[simp] theorem State.clearOut_fillIndex : (s.clearOut).fillIndex = s.fillIndex := rfl
@[simp] theorem State.clearOut_desyncCount : (s.clearOut).desyncCount = s.desyncCount := rfl
@[simp] theorem State.clearOut_pending : (s.clearOut).pending = s.pending := rfl
@[simp] theorem State.clearOut_out : (s.clearOut).out = Output.quiet := rfl

@[simp] theorem State.store_cfg (b : Byte) : (s.store b).cfg = s.cfg := rfl
@[simp] theorem State.store_buf (b : Byte) : (s.store b).buf = s.buf.write s.fillIndex b := rfl
@[simp] theorem State.store_fillIndex (b : Byte) : (s.store b).fillIndex = s.fillIndex + 1 := rfl
@[simp] theorem State.store_desyncCount (b : Byte) : (s.store b).desyncCount = s.desyncCount := rfl
@[simp] theorem State.store_pending (b : Byte) : (s.store b).pending = s.pending := rfl
@[simp] theorem State.store_out (b : Byte) : (s.store b).out = s.out := rfl

@[simp] theorem State.setFill_cfg (v : Nat) : (s.setFill v).cfg = s.cfg := rfl
@[simp] theorem State.setFill_buf (v : Nat) : (s.setFill v).buf = s.buf := rfl
@[simp] theorem State.setFill_fillIndex (v : Nat) : (s.setFill v).fillIndex = v := rfl
@[simp] theorem State.setFill_desyncCount (v : Nat) : (s.setFill v).desyncCount = s.desyncCount := rfl
@[simp] theorem State.setFill_pending (v : Nat) : (s.setFill v).pending = s.pending := rfl
@[simp] theorem State.setFill_out (v : Nat) : (s.setFill v).out = s.out := rfl

@[simp] theorem State.setFrame_cfg (F : Frame) : (s.setFrame F).cfg = s.cfg := rfl
@[simp] theorem State.setFrame_buf (F : Frame) : (s.setFrame F).buf = s.buf := rfl
@[simp] theorem State.setFrame_fillIndex (F : Frame) : (s.setFrame F).fillIndex = s.fillIndex := rfl
@[simp] theorem State.setFrame_desyncCount (F : Frame) : (s.setFrame F).desyncCount = s.desyncCount := rfl
@[simp] theorem State.setFrame_pending (F : Frame) : (s.setFrame F).pending = s.pending := rfl
@[simp] theorem State.setFrame_out (F : Frame) : (s.setFrame F).out = { s.out with frame := some F } := rfl

@[simp] theorem State.emit_cfg : s.emit.cfg = s.cfg := rfl
@[simp] theorem State.emit_buf : s.emit.buf = s.buf := rfl
@[simp] theorem State.emit_fillIndex : s.emit.fillIndex = s.fillIndex := rfl
@[simp] theorem State.emit_desyncCount : s.emit.desyncCount = s.desyncCount := rfl
@[simp] theorem State.emit_pending : s.emit.pending = s.pending := rfl
@[simp] theorem State.emit_out : s.emit.out = { s.out with frame := some s.snapshot } := rfl

@[simp] theorem State.noteDrop_cfg : (s.noteDrop).cfg = s.cfg := rfl
@[simp] theorem State.noteDrop_buf : (s.noteDrop).buf = s.buf := rfl
@[simp] theorem State.noteDrop_fillIndex : (s.noteDrop).fillIndex = s.fillIndex := rfl
@[simp] theorem State.noteDrop_desyncCount : (s.noteDrop).desyncCount = satInc s.cfg.diagWidth s.desyncCount := rfl
@[simp] theorem State.noteDrop_pending : (s.noteDrop).pending = s.pending := rfl
@[simp] theorem State.noteDrop_out : (s.noteDrop).out = { s.out with dropped := true } := rfl

@[simp] theorem State.clearRegs_cfg : (s.clearRegs).cfg = s.cfg := rfl
@[simp] theorem State.clearRegs_buf : (s.clearRegs).buf = s.buf := rfl
@[simp] theorem State.clearRegs_fillIndex : (s.clearRegs).fillIndex = 0 := rfl
@[simp] theorem State.clearRegs_desyncCount : (s.clearRegs).desyncCount = 0 := rfl
@[simp] theorem State.clearRegs_pending : (s.clearRegs).pending = s.pending := rfl
@[simp] theorem State.clearRegs_out : (s.clearRegs).out = s.out := rfl

@[simp] theorem State.mapSample_cfg (f : SampleOut → SampleOut) : (s.mapSample f).cfg = s.cfg := rfl
@[simp] theorem State.mapSample_buf (f : SampleOut → SampleOut) : (s.mapSample f).buf = s.buf := rfl
@[simp] theorem State.mapSample_fillIndex (f : SampleOut → SampleOut) : (s.mapSample f).fillIndex = s.fillIndex := rfl
@[simp] theorem State.mapSample_desyncCount (f : SampleOut → SampleOut) : (s.mapSample f).desyncCount = s.desyncCount := rfl
@[simp] theorem State.mapSample_pending (f : SampleOut → SampleOut) : (s.mapSample f).pending = s.pending := rfl
@[simp] theorem State.mapSample_out (f : SampleOut → SampleOut) : (s.mapSample f).out = { s.out with sample := f s.out.sample } := rfl

@[simp] theorem State.setPending_cfg (ws : List EventWord) : (s.setPending ws).cfg = s.cfg := rfl
@[simp] theorem State.setPending_buf (ws : List EventWord) : (s.setPending ws).buf = s.buf := rfl
@[simp] theorem State.setPending_fillIndex (ws : List EventWord) : (s.setPending ws).fillIndex = s.fillIndex := rfl
@[simp] theorem State.setPending_desyncCount (ws : List EventWord) : (s.setPending ws).desyncCount = s.desyncCount := rfl
@[simp] theorem State.setPending_pending (ws : List EventWord) : (s.setPending ws).pending = ws := rfl
@[simp] theorem State.setPending_out (ws : List EventWord) : (s.setPending ws).out = s.out := rfl

/-- Two states with equal fields are equal. -/
theorem State.ext_fields {s t : State} (hcfg : s.cfg = t.cfg) (hbuf : s.buf = t.buf)
    (hfill : s.fillIndex = t.fillIndex) (hcount : s.desyncCount = t.desyncCount)
    (hpend : s.pending = t.pending) (hout : s.out = t.out) : s = t := by
  cases s; cases t; simp_all

@[simp] theorem Output.quiet_frame : Output.quiet.frame = none := rfl
@[simp] theorem Output.quiet_dropped : Output.quiet.dropped = false := rfl
@[simp] theorem Output.quiet_sample : Output.quiet.sample = SampleOut.absent := rfl

end Sys2Proof.Machine
end

