-- ==== Sys2Proof/Laws/Memory.lean ====
section
/-! SUPPORT. The buffer's laws: a read after a write, the canonical form, and what a range reads as. -/

namespace Sys2Proof.Machine

open Sys2Proof

@[simp] theorem Memory.lookup_nil (i : Nat) : Memory.lookup [] i = none := rfl

/-- An index at or below a lower bound of the list is not listed. -/
theorem Memory.lookup_eq_none_of_above {m : Memory} {lo : Nat} (h : m.above lo = true) {i : Nat}
    (hi : i ≤ lo) : m.lookup i = none := by
  induction m with
  | nil => rfl
  | cons p m ih =>
    obtain ⟨a, b⟩ := p
    simp only [Memory.above, Bool.and_eq_true, decide_eq_true_eq] at h
    simp only [Memory.lookup, if_neg (show a ≠ i by omega)]
    exact ih h.2

/-- An index at or above an upper bound of the list is not listed. -/
theorem Memory.lookup_eq_none_of_below {m : Memory} {n : Nat} (h : m.below n = true) {i : Nat}
    (hi : n ≤ i) : m.lookup i = none := by
  induction m with
  | nil => rfl
  | cons p m ih =>
    obtain ⟨a, b⟩ := p
    simp only [Memory.below, Bool.and_eq_true, decide_eq_true_eq] at h
    simp only [Memory.lookup, if_neg (show a ≠ i by omega)]
    exact ih h.2

theorem Memory.above_mono {m : Memory} {lo lo' : Nat} (h : m.above lo = true) (hle : lo' ≤ lo) :
    m.above lo' = true := by
  induction m with
  | nil => rfl
  | cons p m ih =>
    obtain ⟨a, b⟩ := p
    simp only [Memory.above, Bool.and_eq_true, decide_eq_true_eq] at h ⊢
    exact ⟨by omega, ih h.2⟩

@[simp] theorem Memory.lookup_write_same (m : Memory) (i : Nat) (v : Byte) :
    (m.write i v).lookup i = some v := by
  induction m with
  | nil => simp [Memory.write, Memory.lookup]
  | cons p m ih =>
    obtain ⟨a, b⟩ := p
    simp only [Memory.write]
    split
    · simp [Memory.lookup]
    · split
      · simp [Memory.lookup]
      · rename_i h
        simp only [Memory.lookup, if_neg (fun e => h (Eq.symm e))]
        exact ih

theorem Memory.lookup_write_of_ne (m : Memory) {i j : Nat} (v : Byte) (h : j ≠ i) :
    (m.write i v).lookup j = m.lookup j := by
  induction m with
  | nil => simp [Memory.write, Memory.lookup, Ne.symm h]
  | cons p m ih =>
    obtain ⟨a, b⟩ := p
    simp only [Memory.write]
    split
    · simp [Memory.lookup, Ne.symm h]
    · split
      · rename_i he
        subst he
        simp [Memory.lookup, Ne.symm h]
      · simp only [Memory.lookup, ih]

/-- What is written at an index after a write. -/
theorem Memory.lookup_write (m : Memory) (i j : Nat) (v : Byte) :
    (m.write i v).lookup j = if j = i then some v else m.lookup j := by
  split
  · rename_i h; subst h; exact m.lookup_write_same j v
  · rename_i h; exact m.lookup_write_of_ne v h

theorem Memory.above_write {m : Memory} {lo i : Nat} {v : Byte} (h : m.above lo = true)
    (hi : lo < i) : (m.write i v).above lo = true := by
  induction m with
  | nil => simp [Memory.write, Memory.above, hi]
  | cons p m ih =>
    obtain ⟨a, b⟩ := p
    simp only [Memory.above, Bool.and_eq_true, decide_eq_true_eq] at h
    simp only [Memory.write]
    split
    · simp [Memory.above, hi, h.1, h.2]
    · split
      · simp [Memory.above, hi, h.2]
      · simp [Memory.above, h.1, ih h.2]

/-- A write keeps the canonical form. -/
theorem Memory.wf_write {m : Memory} (h : m.wf = true) (i : Nat) (v : Byte) :
    (m.write i v).wf = true := by
  induction m with
  | nil => simp [Memory.write, Memory.wf, Memory.above]
  | cons p m ih =>
    obtain ⟨a, b⟩ := p
    simp only [Memory.wf, Bool.and_eq_true] at h
    simp only [Memory.write]
    split
    · rename_i hlt
      simp only [Memory.wf, Memory.above, Bool.and_eq_true, decide_eq_true_eq]
      exact ⟨⟨hlt, Memory.above_mono h.1 (by omega)⟩, h.1, h.2⟩
    · split
      · rename_i he
        subst he
        simp only [Memory.wf, Bool.and_eq_true]
        exact h
      · simp only [Memory.wf, Bool.and_eq_true]
        exact ⟨Memory.above_write h.1 (by omega), ih h.2⟩

/-- A write below `n` keeps every index below `n`. -/
theorem Memory.below_write {m : Memory} {n i : Nat} (h : m.below n = true) (hi : i < n) (v : Byte) :
    (m.write i v).below n = true := by
  induction m with
  | nil => simp [Memory.write, Memory.below, hi]
  | cons p m ih =>
    obtain ⟨a, b⟩ := p
    simp only [Memory.below, Bool.and_eq_true, decide_eq_true_eq] at h
    simp only [Memory.write]
    split
    · simp [Memory.below, hi, h.1, h.2]
    · split
      · simp [Memory.below, hi, h.2]
      · simp [Memory.below, h.1, ih h.2]

/-- Two buffers in canonical form with the same bytes written at the same indices are equal data. -/
theorem Memory.ext_lookup {m m' : Memory} (h : m.wf = true) (h' : m'.wf = true)
    (heq : ∀ i, m.lookup i = m'.lookup i) : m = m' := by
  induction m generalizing m' with
  | nil =>
    cases m' with
    | nil => rfl
    | cons p m' => simpa [Memory.lookup] using heq p.1
  | cons p m ih =>
    obtain ⟨a, b⟩ := p
    cases m' with
    | nil => simpa [Memory.lookup] using heq a
    | cons p' m' =>
      obtain ⟨a', b'⟩ := p'
      simp only [Memory.wf, Bool.and_eq_true] at h h'
      have haa : a = a' := by
        rcases Nat.lt_trichotomy a a' with hlt | rfl | hlt
        · have := heq a
          simp only [Memory.lookup, if_pos, if_neg (show a' ≠ a by omega),
            Memory.lookup_eq_none_of_above h'.1 (Nat.le_of_lt hlt)] at this
          cases this
        · rfl
        · have := heq a'
          simp only [Memory.lookup, if_pos, if_neg (show a ≠ a' by omega),
            Memory.lookup_eq_none_of_above h.1 (Nat.le_of_lt hlt)] at this
          cases this
      subst haa
      have hbb : b = b' := by simpa [Memory.lookup] using heq a
      subst hbb
      refine congrArg _ (ih h.2 h'.2 fun i => ?_)
      by_cases hi : a = i
      · subst hi
        rw [Memory.lookup_eq_none_of_above h.1 (Nat.le_refl _),
          Memory.lookup_eq_none_of_above h'.1 (Nat.le_refl _)]
      · simpa only [Memory.lookup, if_neg hi] using heq i

/-! ## The byte at an index -/

theorem Memory.read_of_lookup {m : Memory} {i : Nat} {b : Byte} (h : m.lookup i = some b) :
    m.read i = b := by simp [Memory.read, h]

/-- An index that nothing has written reads as the free value. -/
theorem Memory.read_of_unwritten {m : Memory} {i : Nat} (h : m.lookup i = none) :
    m.read i = Config.staleByte i := by simp [Memory.read, h]

@[simp] theorem Memory.read_write_same (m : Memory) (i : Nat) (v : Byte) :
    (m.write i v).read i = v := Memory.read_of_lookup (m.lookup_write_same i v)

theorem Memory.read_write_of_ne (m : Memory) {i j : Nat} (v : Byte) (h : j ≠ i) :
    (m.write i v).read j = m.read j := by simp only [Memory.read, m.lookup_write_of_ne v h]

/-- What an index reads as after a write. -/
theorem Memory.read_write (m : Memory) (i j : Nat) (v : Byte) :
    (m.write i v).read j = if j = i then v else m.read j := by
  split
  · rename_i h; subst h; exact m.read_write_same j v
  · rename_i h; exact m.read_write_of_ne v h

/-! ## Ranges -/

@[simp] theorem Memory.readRange_length (m : Memory) (start n : Nat) :
    (m.readRange start n).length = n := by simp [Memory.readRange]

/-- Byte `k` of a range is the byte at index `start + k`. -/
theorem Memory.readRange_getElem? (m : Memory) (start n k : Nat) :
    (m.readRange start n)[k]? = if k < n then some (m.read (start + k)) else none := by
  simp only [Memory.readRange, List.getElem?_map]
  split
  · rename_i h; simp [List.getElem?_range' h]
  · rename_i h; simp only [List.getElem?_eq_none (l := List.range' start n) (i := k) (by simp; omega)]; rfl

/-- What a range reads as. -/
theorem Memory.readRange_eq {m : Memory} {start n : Nat} {F : Frame} :
    m.readRange start n = F ↔ F.length = n ∧ ∀ k, k < n → F[k]? = some (m.read (start + k)) := by
  constructor
  · rintro rfl
    exact ⟨by simp, fun k hk => by rw [Memory.readRange_getElem?, if_pos hk]⟩
  · rintro ⟨hlen, hread⟩
    refine List.ext_getElem? fun k => ?_
    rw [Memory.readRange_getElem?]
    split
    · rename_i hk; exact (hread k hk).symm
    · rename_i hk; exact (List.getElem?_eq_none (by omega)).symm

/-- A range depends only on the bytes in it. -/
theorem Memory.readRange_congr {m m' : Memory} {start n : Nat}
    (h : ∀ k, k < n → m.read (start + k) = m'.read (start + k)) :
    m.readRange start n = m'.readRange start n :=
  Memory.readRange_eq.2
    ⟨by simp, fun k hk => by rw [Memory.readRange_getElem?, if_pos hk, h k hk]⟩

/-- One more byte of a range is the byte at its end. -/
theorem Memory.readRange_succ (m : Memory) (start n : Nat) :
    m.readRange start (n + 1) = m.readRange start n ++ [m.read (start + n)] := by
  simp [Memory.readRange, List.range'_concat]

/-- The memory after reset is in canonical form. -/
theorem State.reset_buf_wf : State.reset.buf.wf = true := rfl

end Sys2Proof.Machine
end

