-- ==== Sys2Proof/Laws/Ops.lean ====
section
/-! SUPPORT. For each shared operation, one lemma that says everything it can do, and the decoding of
event words. -/

namespace Sys2Proof

/-! ## Event words -/

@[simp] theorem rstBit_feedWord (b : Byte) : rstBit (feedWord b) = false := by
  revert b; decide

@[simp] theorem inValidBit_feedWord (b : Byte) : inValidBit (feedWord b) = true := by
  revert b; decide

@[simp] theorem inData_feedWord (b : Byte) : inData (feedWord b) = b := by
  revert b; decide

@[simp] theorem decodeEvent_feedWord (b : Byte) : decodeEvent (feedWord b) = .feed b := by
  simp [decodeEvent]

@[simp] theorem decodeEvent_reset : decodeEvent 0x200#10 = .reset := by decide

@[simp] theorem decodeEvent_idle : decodeEvent 0x000#10 = .idle := by decide

end Sys2Proof

namespace Sys2Proof.Machine

open Sys2Proof

/-! ## Parts of a step -/

@[simp] theorem andThen_next (s : State) (f : State → Result) : andThen (.next s) f = f s := rfl
@[simp] theorem andThen_fault (e : Fault) (f : State → Result) :
    andThen (.fault e) f = .fault e := rfl
@[simp] theorem andThen_refused (e : Refusal) (f : State → Result) :
    andThen (.refused e) f = .refused e := rfl

/-- Two parts of a step answer a next state only if each does. -/
theorem andThen_eq_next {r : Result} {f : State → Result} {t : State} :
    andThen r f = .next t ↔ ∃ s, r = .next s ∧ f s = .next t := by
  cases r <;> simp [andThen]

@[simp] theorem whenSelected_true (r : Result) : whenSelected true r = r := rfl
@[simp] theorem whenSelected_false (r : Result) : whenSelected false r = .fault .notSelected := rfl

/-- An operation answers a next state only where its selection condition holds. -/
theorem whenSelected_eq_next {sel : Bool} {r : Result} {t : State} :
    whenSelected sel r = .next t ↔ sel = true ∧ r = .next t := by
  cases sel <;> simp

/-- All an append can do: store below capacity, fault at or beyond it. -/
theorem append_eq (b : Byte) (s : State) :
    append b s = if s.fillIndex < s.cfg.frameLength then .next (s.store b)
      else .fault .bufferOverrun := rfl

/-- An append answers a next state only below capacity. -/
theorem append_eq_next {b : Byte} {s t : State} :
    append b s = .next t ↔ s.fillIndex < s.cfg.frameLength ∧ s.store b = t := by
  rw [append_eq]
  split <;> simp_all

/-- What a snapshot is: `FRAME_LENGTH` bytes, byte `k` the byte at index `k`. -/
theorem State.snapshot_eq {s : State} {F : Frame} :
    s.snapshot = F ↔
      F.length = s.cfg.frameLength ∧ ∀ k, k < s.cfg.frameLength → F[k]? = some (s.buf.read k) := by
  simpa [State.snapshot] using
    Memory.readRange_eq (m := s.buf) (start := 0) (n := s.cfg.frameLength) (F := F)

@[simp] theorem State.snapshot_length (s : State) : s.snapshot.length = s.cfg.frameLength :=
  Memory.readRange_length _ _ _

/-- Byte `k` of a snapshot is `buf[k]`. -/
theorem State.snapshot_getElem? (s : State) (k : Nat) : s.snapshot[k]? = s.bufByte k := by
  simp [State.snapshot, State.bufByte, Memory.readRange_getElem?]

@[simp] theorem State.clearOut_snapshot (s : State) : s.clearOut.snapshot = s.snapshot := rfl

/-- The buffer has a byte at the indices below `FRAME_LENGTH` and at no other (10_state.md R10). -/
theorem State.bufByte_isSome {s : State} {i : Nat} :
    (s.bufByte i).isSome = true ↔ i < s.cfg.frameLength := by
  unfold State.bufByte
  split <;> simp_all

theorem State.bufByte_eq_some {s : State} {i : Nat} {b : Byte} :
    s.bufByte i = some b ↔ i < s.cfg.frameLength ∧ s.buf.read i = b := by
  simp [State.bufByte]

/-! ## State classes -/

theorem classOf_eq_empty {len fill : Nat} : classOf len fill = .empty ↔ fill = 0 := by
  unfold classOf
  split
  · simp_all
  · split
    · simp_all
    · split
      · simp_all
      · split <;> simp_all

theorem classOf_eq_last {len fill : Nat} :
    classOf len fill = .last ↔ 0 < fill ∧ fill + 1 = len := by
  unfold classOf
  split
  · simp_all
  · split
    · simp_all; omega
    · split
      · simp_all
      · split <;> simp_all

theorem classOf_eq_filling {len fill : Nat} :
    classOf len fill = .filling ↔ 0 < fill ∧ fill + 1 < len := by
  unfold classOf
  split
  · simp_all
  · split
    · simp_all
    · split
      · simp_all; omega
      · split <;> simp_all; omega

theorem classOf_eq_full {len fill : Nat} :
    classOf len fill = .full ↔ 0 < fill ∧ fill = len := by
  unfold classOf
  split
  · simp_all
  · split
    · simp_all; omega
    · split
      · simp_all; omega
      · split <;> simp_all; omega

theorem classOf_eq_overrun {len fill : Nat} :
    classOf len fill = .overrun ↔ 0 < fill ∧ len < fill := by
  unfold classOf
  split
  · simp_all
  · split
    · simp_all; omega
    · split
      · simp_all; omega
      · split <;> simp_all; omega

/-! ## The decoder's instructions -/

/-- The two bytes of a field, where the Frame has them. -/
theorem frameWord_eq_some {F : Frame} {off : Nat} {raw : Half} :
    frameWord F off = some raw ↔
      ∃ lo hi, F[off]? = some lo ∧ F[off + 1]? = some hi ∧ raw = hi ++ lo := by
  unfold frameWord
  split
  · rename_i lo hi h1 h2
    simp [h1, h2, eq_comm]
  · rename_i h
    constructor
    · intro h'; cases h'
    · rintro ⟨lo, hi, h1, h2, -⟩
      exact absurd h2 (by simpa using h lo hi h1)

/-- A Frame of at least 82 bytes has every field: each offset the decoder reads is in it
(41_telemetry_decoder.md R110). -/
theorem frameWord_isSome {F : Frame} {off : Nat} (h : off + 1 < F.length) :
    ∃ raw, frameWord F off = some raw := by
  refine ⟨F[off + 1] ++ F[off], frameWord_eq_some.2 ⟨F[off], F[off + 1], ?_, ?_, rfl⟩⟩
  · exact List.getElem?_eq_getElem (by omega)
  · exact List.getElem?_eq_getElem h

end Sys2Proof.Machine
end

