-- ==== Sys2Proof/Laws/Operands.lean ====
section
/-! SUPPORT. The decoder's arithmetic and the counter in terms omega knows. -/

namespace Sys2Proof.Machine

open Sys2Proof

/-- Truncating division by cases on the sign, for `omega`. -/
theorem tdiv_eq (a d : Int) : tdiv a d = if 0 ≤ a then a / d else -(-a / d) := by
  unfold tdiv
  split
  · rename_i h
    exact Int.tdiv_eq_ediv_of_nonneg h
  · rename_i h
    have := Int.neg_tdiv (a := -a) (b := d)
    rw [neg_neg] at this
    rw [this, Int.tdiv_eq_ediv_of_nonneg (by omega)]

/-- The two's-complement range. -/
theorem sext16_range (raw : Half) : -32768 ≤ sext16 raw ∧ sext16 raw ≤ 32767 := by
  have h1 := BitVec.toInt_lt (x := raw)
  have h2 := BitVec.le_toInt (x := raw)
  simp only [sext16]
  omega

/-- An integer in the 16-bit range is read back from its output. -/
theorem narrow16_toInt {v : Int} (h1 : -32768 ≤ v) (h2 : v ≤ 32767) : (narrow16 v).toInt = v := by
  simp only [narrow16, BitVec.toInt_ofInt]
  rw [Int.bmod_eq_of_le] <;> omega

/-- A field that the Frame has is a signed 16-bit value. -/
theorem field16_range {F : Frame} {off : Nat} {v : Int} (h : field16 F off = some v) :
    -32768 ≤ v ∧ v ≤ 32767 := by
  obtain ⟨raw, -, rfl⟩ := Option.map_eq_some_iff.1 h
  exact sext16_range raw

/-- A saturating increment keeps the counter within its width (10_state.md R14). -/
theorem satInc_lt {width c : Nat} (h : c < 2 ^ width) : satInc width c < 2 ^ width := by
  by_cases hc : c < 2 ^ width - 1
  · simp only [satInc, if_pos hc]; omega
  · simp only [satInc, if_neg hc]; omega

/-- What a Sample is made of: the thirteen fields of its Frame. -/
theorem decodeSample_eq_some {F : Frame} {x : Sample} :
    decodeSample F = some x ↔
      field16 F 2 = some x.accX ∧ field16 F 4 = some x.accY ∧ field16 F 6 = some x.accZ ∧
      field16 F 8 = some x.gyrX ∧ field16 F 10 = some x.gyrY ∧ field16 F 12 = some x.gyrZ ∧
      (field16 F 14).map (tdiv · magDivisor) = some x.magX ∧
      (field16 F 16).map (tdiv · magDivisor) = some x.magY ∧
      (field16 F 18).map (tdiv · magDivisor) = some x.magZ ∧
      field16 F 20 = some x.baro ∧ field16 F 22 = some x.heading ∧
      (field16 F 78).map (tdiv · angleDivisor) = some x.roll ∧
      (field16 F 80).map (tdiv · angleDivisor) = some x.pitch := by
  constructor
  · intro h
    unfold decodeSample at h
    obtain ⟨_, h1, h⟩ := Option.bind_eq_some_iff.1 h
    obtain ⟨_, h2, h⟩ := Option.bind_eq_some_iff.1 h
    obtain ⟨_, h3, h⟩ := Option.bind_eq_some_iff.1 h
    obtain ⟨_, h4, h⟩ := Option.bind_eq_some_iff.1 h
    obtain ⟨_, h5, h⟩ := Option.bind_eq_some_iff.1 h
    obtain ⟨_, h6, h⟩ := Option.bind_eq_some_iff.1 h
    obtain ⟨_, h7, h⟩ := Option.bind_eq_some_iff.1 h
    obtain ⟨_, h8, h⟩ := Option.bind_eq_some_iff.1 h
    obtain ⟨_, h9, h⟩ := Option.bind_eq_some_iff.1 h
    obtain ⟨_, h10, h⟩ := Option.bind_eq_some_iff.1 h
    obtain ⟨_, h11, h⟩ := Option.bind_eq_some_iff.1 h
    obtain ⟨_, h12, h⟩ := Option.bind_eq_some_iff.1 h
    obtain ⟨_, h13, h⟩ := Option.bind_eq_some_iff.1 h
    cases h
    exact ⟨h1, h2, h3, h4, h5, h6, by rw [h7]; rfl, by rw [h8]; rfl, by rw [h9]; rfl, h10, h11,
      by rw [h12]; rfl, by rw [h13]; rfl⟩
  · rintro ⟨h1, h2, h3, h4, h5, h6, h7, h8, h9, h10, h11, h12, h13⟩
    obtain ⟨_, h7, e7⟩ := Option.map_eq_some_iff.1 h7
    obtain ⟨_, h8, e8⟩ := Option.map_eq_some_iff.1 h8
    obtain ⟨_, h9, e9⟩ := Option.map_eq_some_iff.1 h9
    obtain ⟨_, h12, e12⟩ := Option.map_eq_some_iff.1 h12
    obtain ⟨_, h13, e13⟩ := Option.map_eq_some_iff.1 h13
    unfold decodeSample
    rw [h1, h2, h3, h4, h5, h6, h7, h8, h9, h10, h11, h12, h13]
    cases x
    cases e7; cases e8; cases e9; cases e12; cases e13
    rfl

end Sys2Proof.Machine
end

