-- ==== Sys2Proof/Laws/PerInstr.lean ====
section
/-! SUPPORT. For every instruction, its encoding is the one its row of spec/opcode_table.json gives. -/

namespace Sys2Proof.Laws.TableRow

open Sys2Proof

/-- A row's `match` and `mask`, or a FRAME16 row's low-byte and high-byte offsets. -/
inductive Row where
  | event (bits mask : EventWord)
  | frame16 (lo hi : Nat)
deriving DecidableEq, Repr

/-- The rows of spec/opcode_table.json, copied from the table. -/
def rowOf : Instr → Row
  | .reset => .event 0x200#10 0x200#10
  | .idle => .event 0x000#10 0x300#10
  | .bStart _ => .event 0x14D#10 0x3FF#10
  | .bDrop _ => .event 0x100#10 0x300#10
  | .bAppend _ => .event 0x100#10 0x300#10
  | .bComplete _ => .event 0x100#10 0x300#10
  | .aStart _ => .event 0x14D#10 0x3FF#10
  | .aDropEmpty _ => .event 0x100#10 0x300#10
  | .aAppend _ => .event 0x100#10 0x300#10
  | .aRetrigger _ => .event 0x14D#10 0x3FF#10
  | .aDropFull _ => .event 0x100#10 0x300#10
  | .accX _ => .frame16 2 3
  | .accY _ => .frame16 4 5
  | .accZ _ => .frame16 6 7
  | .gyrX _ => .frame16 8 9
  | .gyrY _ => .frame16 10 11
  | .gyrZ _ => .frame16 12 13
  | .magX _ => .frame16 14 15
  | .magY _ => .frame16 16 17
  | .magZ _ => .frame16 18 19
  | .baro _ => .frame16 20 21
  | .heading _ => .frame16 22 23
  | .roll _ => .frame16 78 79
  | .pitch _ => .frame16 80 81

/-- An encoding is one of a row's. -/
def Row.admits : Row → Encoding → Prop
  | .event bits mask, .event w => w &&& mask = bits
  | .frame16 lo hi, .frame16 off _ => off = lo ∧ off + 1 = hi
  | .event _ _, .frame16 _ _ => False
  | .frame16 _ _, .event _ => False

/-- In a block whose marker is the table's 0x4D, the encoding of a well-formed instruction is one its
own row admits. -/
def Statement (i : Instr) : Prop :=
  ∀ cfg : Config, cfg.marker = 0x4D#8 → i.wf cfg = true → (rowOf i).admits (encode i)

theorem feedWord_masked (b : Byte) : feedWord b &&& 0x300#10 = 0x100#10 := by
  revert b; decide

theorem reset : Statement .reset := fun _ _ _ => rfl
theorem idle : Statement .idle := fun _ _ _ => rfl
theorem bStart (b : Byte) : Statement (.bStart b) := fun cfg hm hwf => by
  have hb : b = 0x4D#8 := by simp [Instr.wf, hm] at hwf; exact hwf.2
  subst hb; rfl
theorem bDrop (b : Byte) : Statement (.bDrop b) := fun _ _ _ => feedWord_masked b
theorem bAppend (b : Byte) : Statement (.bAppend b) := fun _ _ _ => feedWord_masked b
theorem bComplete (b : Byte) : Statement (.bComplete b) := fun _ _ _ => feedWord_masked b
theorem aStart (b : Byte) : Statement (.aStart b) := fun cfg hm hwf => by
  have hb : b = 0x4D#8 := by simp [Instr.wf, hm] at hwf; exact hwf.2
  subst hb; rfl
theorem aDropEmpty (b : Byte) : Statement (.aDropEmpty b) := fun _ _ _ => feedWord_masked b
theorem aAppend (b : Byte) : Statement (.aAppend b) := fun _ _ _ => feedWord_masked b
theorem aRetrigger (b : Byte) : Statement (.aRetrigger b) := fun cfg hm hwf => by
  have hb : b = 0x4D#8 := by simp [Instr.wf, hm] at hwf; exact hwf.2
  subst hb; rfl
theorem aDropFull (b : Byte) : Statement (.aDropFull b) := fun _ _ _ => feedWord_masked b
theorem accX (raw : Half) : Statement (.accX raw) := fun _ _ _ => ⟨rfl, rfl⟩
theorem accY (raw : Half) : Statement (.accY raw) := fun _ _ _ => ⟨rfl, rfl⟩
theorem accZ (raw : Half) : Statement (.accZ raw) := fun _ _ _ => ⟨rfl, rfl⟩
theorem gyrX (raw : Half) : Statement (.gyrX raw) := fun _ _ _ => ⟨rfl, rfl⟩
theorem gyrY (raw : Half) : Statement (.gyrY raw) := fun _ _ _ => ⟨rfl, rfl⟩
theorem gyrZ (raw : Half) : Statement (.gyrZ raw) := fun _ _ _ => ⟨rfl, rfl⟩
theorem magX (raw : Half) : Statement (.magX raw) := fun _ _ _ => ⟨rfl, rfl⟩
theorem magY (raw : Half) : Statement (.magY raw) := fun _ _ _ => ⟨rfl, rfl⟩
theorem magZ (raw : Half) : Statement (.magZ raw) := fun _ _ _ => ⟨rfl, rfl⟩
theorem baro (raw : Half) : Statement (.baro raw) := fun _ _ _ => ⟨rfl, rfl⟩
theorem heading (raw : Half) : Statement (.heading raw) := fun _ _ _ => ⟨rfl, rfl⟩
theorem roll (raw : Half) : Statement (.roll raw) := fun _ _ _ => ⟨rfl, rfl⟩
theorem pitch (raw : Half) : Statement (.pitch raw) := fun _ _ _ => ⟨rfl, rfl⟩

end Sys2Proof.Laws.TableRow
end

