-- ==== Sys2Proof/Laws/Step.lean ====
section
/-! SUPPORT. What a step and a sequence of steps can do. -/

namespace Sys2Proof.Machine

open Sys2Proof

/-- A step answers a next state only by running the one operation its event selects and then the
decoder on what that operation emitted. -/
theorem stepOn_eq_next {w : EventWord} {s t : State} :
    stepOn w s = .next t ↔
      ∃ i u, select s.cfg s.stateClass (decodeEvent w) = some i ∧ exec i s = .next u ∧
        sampleOutputs u = .next t := by
  unfold stepOn
  split
  · rename_i i hi
    simp only [hi, andThen_eq_next, Option.some.injEq, exists_and_left, exists_eq_left']
  · rename_i hi
    simp [hi]

theorem step_of_pending {s : State} {w : EventWord} {ws : List EventWord} (h : s.pending = w :: ws) :
    step s = stepOn w (s.setPending ws) := by
  simp [step, stepPending, h]

theorem step_of_no_pending {s : State} (h : s.pending = []) : step s = stepOn noEventWord s := by
  simp [step, stepPending, h]

/-! ## What an operation that an event selects can do -/

/-- All that the operation selected by `FEED b` can do. -/
inductive FeedCase (s : State) (b : Byte) : State → Prop where
  | drop (hb : b ≠ s.cfg.marker)
      (hc : s.fillIndex = 0 ∨ s.cfg.policy = .A ∧ s.fillIndex = s.cfg.frameLength) :
      FeedCase s b s.clearOut.noteDrop
  | store (hlt : s.fillIndex < s.cfg.frameLength) (hb : s.fillIndex = 0 → b = s.cfg.marker)
      (hB : s.cfg.policy = .B → 0 < s.fillIndex → s.fillIndex + 1 < s.cfg.frameLength) :
      FeedCase s b (s.clearOut.store b)
  | complete (hp : s.cfg.policy = .B) (hpos : 0 < s.fillIndex)
      (hlast : s.fillIndex + 1 = s.cfg.frameLength) :
      FeedCase s b ((s.clearOut.store b).emit.setFill 0)
  | retrigger (hp : s.cfg.policy = .A) (hpos : 0 < s.fillIndex)
      (hfull : s.fillIndex = s.cfg.frameLength) (hb : b = s.cfg.marker) :
      FeedCase s b ((s.clearOut.emit.setFill 0).store b)

/-- All that the operation selected by an event can do. -/
inductive EventCase (s : State) : Event → State → Prop where
  | reset : EventCase s .reset s.clearOut.clearRegs
  | idle : EventCase s .idle s.clearOut
  | feed (b : Byte) (u : State) (h : FeedCase s b u) : EventCase s (.feed b) u

/-- An operation under a guard that gave a next state passed the guard. -/
theorem guard_append_eq_next {sel : Bool} {b : Byte} {s u : State}
    (h : whenSelected sel (append b s.clearOut) = .next u) :
    s.fillIndex < s.cfg.frameLength ∧ s.clearOut.store b = u := by
  simpa using append_eq_next.1 (whenSelected_eq_next.1 h).2

theorem execBComplete_eq_next {b : Byte} {s u : State} (h : execBComplete b s = .next u) :
    s.cfg.policy = .B ∧ s.stateClass = .last ∧ u = (s.clearOut.store b).emit.setFill 0 := by
  obtain ⟨hsel, h⟩ := whenSelected_eq_next.1 h
  obtain ⟨s1, h1, h⟩ := andThen_eq_next.1 h
  obtain ⟨-, rfl⟩ := append_eq_next.1 h1
  simp only [Bool.and_eq_true, decide_eq_true_eq] at hsel
  exact ⟨hsel.1, hsel.2, (Host.Outcome.next.inj h).symm⟩

theorem execARetrigger_eq_next {b : Byte} {s u : State} (h : execARetrigger b s = .next u) :
    s.cfg.policy = .A ∧ s.stateClass = .full ∧ b = s.cfg.marker ∧
      u = (s.clearOut.emit.setFill 0).store b := by
  obtain ⟨hsel, h⟩ := whenSelected_eq_next.1 h
  obtain ⟨-, rfl⟩ := append_eq_next.1 h
  simp only [Bool.and_eq_true, decide_eq_true_eq] at hsel
  exact ⟨hsel.1.1, hsel.1.2, hsel.2, rfl⟩

/-- The inversion of `FEED` under Policy B. -/
theorem feedCase_of_selectB {s u : State} {b : Byte} {i : Instr} (hp : s.cfg.policy = .B)
    (hi : selectB s.cfg.marker s.stateClass b = some i) (hu : exec i s = .next u) :
    FeedCase s b u := by
  unfold selectB at hi
  split at hi
  · rename_i hc
    have h0 := classOf_eq_empty.1 hc
    split at hi <;> cases hi
    · rename_i hb
      obtain ⟨hlt, rfl⟩ := guard_append_eq_next hu
      exact .store hlt (fun _ => hb) (fun _ hpos => by omega)
    · rename_i hb
      obtain rfl := Host.Outcome.next.inj (whenSelected_eq_next.1 hu).2
      exact .drop hb (.inl h0)
  · rename_i hc
    have hf := classOf_eq_filling.1 hc
    cases hi
    obtain ⟨hlt, rfl⟩ := guard_append_eq_next hu
    exact .store hlt (fun h => by omega) (fun _ _ => hf.2)
  · rename_i hc
    have hl := classOf_eq_last.1 hc
    cases hi
    obtain ⟨-, -, rfl⟩ := execBComplete_eq_next hu
    exact .complete hp hl.1 hl.2
  · cases hi
  · cases hi

/-- The inversion of `FEED` under Policy A. -/
theorem feedCase_of_selectA {s u : State} {b : Byte} {i : Instr} (hp : s.cfg.policy = .A)
    (hi : selectA s.cfg.marker s.stateClass b = some i) (hu : exec i s = .next u) :
    FeedCase s b u := by
  have notB : s.cfg.policy ≠ .B := by simp [hp]
  unfold selectA at hi
  split at hi
  · rename_i hc
    have h0 := classOf_eq_empty.1 hc
    split at hi <;> cases hi
    · rename_i hb
      obtain ⟨hlt, rfl⟩ := guard_append_eq_next hu
      exact .store hlt (fun _ => hb) (fun h => absurd h notB)
    · rename_i hb
      obtain rfl := Host.Outcome.next.inj (whenSelected_eq_next.1 hu).2
      exact .drop hb (.inl h0)
  · rename_i hc
    have hf := classOf_eq_filling.1 hc
    cases hi
    obtain ⟨hlt, rfl⟩ := guard_append_eq_next hu
    exact .store hlt (fun h => by omega) (fun h => absurd h notB)
  · rename_i hc
    have hl := classOf_eq_last.1 hc
    cases hi
    obtain ⟨hlt, rfl⟩ := guard_append_eq_next hu
    exact .store hlt (fun h => by omega) (fun h => absurd h notB)
  · rename_i hc
    have hl := classOf_eq_full.1 hc
    split at hi <;> cases hi
    · obtain ⟨-, -, hb, rfl⟩ := execARetrigger_eq_next hu
      exact .retrigger hp hl.1 hl.2 hb
    · rename_i hb
      obtain rfl := Host.Outcome.next.inj (whenSelected_eq_next.1 hu).2
      exact .drop hb (.inr ⟨hp, hl.2⟩)
  · cases hi

/-- What the operation that an event selects can do, once for all proofs. -/
theorem exec_selected_cases {s u : State} {ev : Event} {i : Instr}
    (hi : select s.cfg s.stateClass ev = some i) (hu : exec i s = .next u) : EventCase s ev u := by
  cases ev with
  | reset => cases hi; cases hu; exact .reset
  | idle => cases hi; cases hu; exact .idle
  | feed b =>
    refine .feed b u ?_
    simp only [select] at hi
    split at hi
    · rename_i hp; exact feedCase_of_selectA hp hi hu
    · rename_i hp; exact feedCase_of_selectB hp hi hu

/-! ## What the decoder can do -/

/-- A field instruction changes the Sample outputs and nothing else, in every state alike. -/
theorem exec_field {off : Nat} {raw : Half} {i : Instr} (h : decodeField off raw = .ok i) :
    ∃ f, ∀ s, exec i s = .next (s.mapSample f) := by
  unfold decodeField at h
  split at h <;> cases h <;> exact ⟨_, fun _ => rfl⟩

theorem execAll_fields {F : Frame} {offs : List Nat} {is : List Instr}
    (h : fieldInstrs F offs = .ok is) : ∃ f, ∀ s, execAll is s = .next (s.mapSample f) := by
  induction offs generalizing is with
  | nil => cases h; exact ⟨id, fun _ => rfl⟩
  | cons off offs ih =>
    simp only [fieldInstrs] at h
    split at h
    · cases h
    · split at h
      · cases h
      · rename_i i hi
        split at h
        · cases h
        · rename_i is' his
          cases h
          obtain ⟨f, hf⟩ := exec_field hi
          obtain ⟨g, hg⟩ := ih his
          exact ⟨fun o => g (f o), fun s => by simp [execAll, hf, hg]; rfl⟩

/-- The decoder changes the Sample outputs and nothing else. -/
theorem sampleOutputs_eq_next {u t : State} (h : sampleOutputs u = .next t) :
    ∃ f, t = u.mapSample f := by
  unfold sampleOutputs at h
  split at h
  · exact ⟨id, (Host.Outcome.next.inj h).symm⟩
  · split at h
    · rename_i is his
      obtain ⟨f, hf⟩ := execAll_fields his
      rw [hf] at h
      exact ⟨f, (Host.Outcome.next.inj h).symm⟩
    · cases h

theorem decodeField_of_mem {off : Nat} (h : off ∈ fieldOffsets) (raw : Half) :
    ∃ i, decodeField off raw = .ok i := by
  simp only [fieldOffsets, List.mem_cons, List.not_mem_nil, or_false] at h
  rcases h with rfl | rfl | rfl | rfl | rfl | rfl | rfl | rfl | rfl | rfl | rfl | rfl | rfl <;>
    exact ⟨_, rfl⟩

/-- A Frame of at least 82 bytes gives its field instructions (41_telemetry_decoder.md R110). -/
theorem fieldInstrs_isOk {F : Frame} (hlen : 82 ≤ F.length) {offs : List Nat}
    (hsub : ∀ off ∈ offs, off ∈ fieldOffsets) : ∃ is, fieldInstrs F offs = .ok is := by
  induction offs with
  | nil => exact ⟨[], rfl⟩
  | cons off offs ih =>
    have hmem := hsub off (by simp)
    have hle : off ≤ 80 := by
      simp only [fieldOffsets, List.mem_cons, List.not_mem_nil, or_false] at hmem
      omega
    obtain ⟨raw, hraw⟩ := frameWord_isSome (F := F) (off := off) (by omega)
    obtain ⟨i, hi⟩ := decodeField_of_mem hmem raw
    obtain ⟨is, his⟩ := ih fun o ho => hsub o (by simp [ho])
    exact ⟨i :: is, by simp only [fieldInstrs, hraw, hi, his]⟩

/-- The decoder gives a next state on every Frame of at least 82 bytes. -/
theorem sampleOutputs_isNext {u : State}
    (h : ∀ F, u.out.frame = some F → 82 ≤ F.length) : ∃ t, sampleOutputs u = .next t := by
  unfold sampleOutputs
  split
  · exact ⟨_, rfl⟩
  · rename_i F hF
    obtain ⟨is, his⟩ := fieldInstrs_isOk (h F hF) (offs := fieldOffsets) (fun _ h => h)
    obtain ⟨f, hf⟩ := execAll_fields his
    simp only [frameInstrs, his]
    exact ⟨_, hf u⟩

/-- Where nothing is emitted, the decoder does nothing. -/
theorem sampleOutputs_of_none {s : State} (h : s.out.frame = none) : sampleOutputs s = .next s := by
  simp [sampleOutputs, h]

theorem execAll_eq_next_nil {s t : State} : execAll [] s = .next t ↔ s = t := by
  simp [execAll]

theorem execAll_eq_next_cons {i : Instr} {is : List Instr} {s t : State} :
    execAll (i :: is) s = .next t ↔ ∃ u, exec i s = .next u ∧ execAll is u = .next t := by
  simp [execAll, andThen_eq_next]

@[simp] theorem runEvents_nil (s : State) : runEvents [] s = .next (s, []) := rfl

/-- A step: the operation its event selects, then the decoder. -/
theorem stepOn_cases {w : EventWord} {s t : State} (h : stepOn w s = .next t) :
    ∃ u f, EventCase s (decodeEvent w) u ∧ t = u.mapSample f := by
  obtain ⟨i, u, hi, hu, ht⟩ := stepOn_eq_next.1 h
  obtain ⟨f, rfl⟩ := sampleOutputs_eq_next ht
  exact ⟨u, f, exec_selected_cases hi hu, rfl⟩

/-- A run answers a next state only if its first step does and the rest of it does from there. -/
theorem runEvents_cons_eq_next {w : EventWord} {ws : List EventWord} {s t : State}
    {outs : List Output} :
    runEvents (w :: ws) s = .next (t, outs) ↔
      ∃ u os, stepOn w s = .next u ∧ runEvents ws u = .next (t, os) ∧ outs = u.out :: os := by
  simp only [runEvents]
  constructor
  · intro h
    split at h
    · rename_i u hu
      split at h
      · rename_i t' os hr
        obtain ⟨rfl, rfl⟩ := Prod.mk.inj (Host.Outcome.next.inj h)
        exact ⟨u, os, hu, hr, rfl⟩
      · cases h
      · cases h
    · cases h
    · cases h
  · rintro ⟨u, os, hu, hr, rfl⟩
    rw [hu]
    simp only [hr]

end Sys2Proof.Machine
end

