-- ==== Sys2Proof/Tests/Slice0.lean ====
section
/-! SUPPORT. Tests against the spec's own examples and vectors (95_test_vectors.md, the examples of the
rules), the well-formedness smoke test, decoded words, and a witness for the hypotheses of every
statement. -/

namespace Sys2Proof.Tests

open Sys2Proof Sys2Proof.Machine

/-! ## Helpers -/

/-- The next state, where there is one. -/
def nextOf (r : Result) : Option State :=
  match r with
  | .next s => some s
  | .fault _ => none
  | .refused _ => none

/-- The fault, where there is one. -/
def faultOf (r : Result) : Option Fault :=
  match r with
  | .next _ => none
  | .fault e => some e
  | .refused _ => none

/-- A state of the spec's own parameters but the policy. -/
def at154 (p : Policy) (buf : Memory) (fill count : Nat) : State :=
  { State.reset with
    cfg := { Config.spec with policy := p }, buf := buf, fillIndex := fill, desyncCount := count }

/-- The bytes of a list at the indices from `i` on. -/
def cells : Nat → List Byte → Memory
  | _, [] => []
  | i, b :: bs => (i, b) :: cells (i + 1) bs

/-- `4D 00*(n-1)`. -/
def prefixBytes : Nat → List Byte
  | 0 => []
  | n + 1 => 0x4D#8 :: List.replicate n 0#8

/-- A resting state of the shortest Frame length, 82, with `n` bytes accepted. -/
def at82 (p : Policy) (n : Nat) : State :=
  { State.reset with
    cfg := { Config.spec with policy := p, frameLength := 82 }
    buf := cells 0 (prefixBytes n)
    fillIndex := n }

/-- A Frame of 82 bytes with marker-free payload. -/
def frame82 : Frame := prefixBytes 82

/-- The cursor, the counter, the drop output and whether a Frame is put out. -/
def view (t : State) : Nat × Nat × Bool × Bool :=
  (t.fillIndex, t.desyncCount, t.out.dropped, t.out.frame.isSome)

/-! ## Well-formedness: an ill-formed term for each check -/

theorem test_config_wf : Config.spec.wf = true := by decide
theorem test_config_short_refused : Config.wf { Config.spec with frameLength := 81 } = false := by
  decide
theorem test_wf_start_needs_marker : Instr.wf Config.spec (.bStart 0x4C#8) = false := by decide
theorem test_wf_drop_needs_other : Instr.wf Config.spec (.bDrop 0x4D#8) = false := by decide
theorem test_wf_policy_checked : Instr.wf Config.spec (.aAppend 0x00#8) = false := by decide
theorem test_wf_policy_checked_b :
    Instr.wf { Config.spec with policy := .A } (.bComplete 0x00#8) = false := by decide
theorem test_wf_retrigger_needs_marker :
    Instr.wf { Config.spec with policy := .A } (.aRetrigger 0x00#8) = false := by decide
theorem test_wf_drop_full_needs_other :
    Instr.wf { Config.spec with policy := .A } (.aDropFull 0x4D#8) = false := by decide
theorem test_class_checked : Instr.classOk .filling (.bComplete 0x00#8) = false := by decide
theorem test_class_last_is_append_under_a : Instr.classOk .last (.aAppend 0x00#8) = true := by decide

/-! ## Decoding: words written out bit by bit as `rst in_valid in_data` (30_encoding.md R66) -/

theorem test_decode_reset :
    decode Config.spec .filling (.event 0b1000000000#10) = .ok .reset := by rfl
theorem test_decode_reset_overrides_byte :
    decode Config.spec .filling (.event 0b1101001101#10) = .ok .reset := by rfl
theorem test_decode_idle :
    decode Config.spec .full (.event 0b0001001101#10) = .ok .idle := by rfl
theorem test_decode_bStart :
    decode Config.spec .empty (.event 0b0101001101#10) = .ok (.bStart 0x4D#8) := by rfl
theorem test_decode_bDrop :
    decode Config.spec .empty (.event 0b0101001100#10) = .ok (.bDrop 0x4C#8) := by rfl
theorem test_decode_bAppend :
    decode Config.spec .filling (.event 0b0110101011#10) = .ok (.bAppend 0xAB#8) := by rfl
theorem test_decode_bComplete :
    decode Config.spec .last (.event 0b0101111111#10) = .ok (.bComplete 0x7F#8) := by rfl
theorem test_decode_aStart :
    decode { Config.spec with policy := .A } .empty (.event 0b0101001101#10)
      = .ok (.aStart 0x4D#8) := by rfl
theorem test_decode_aDropEmpty :
    decode { Config.spec with policy := .A } .empty (.event 0b0111111111#10)
      = .ok (.aDropEmpty 0xFF#8) := by rfl
theorem test_decode_aAppend_in_last :
    decode { Config.spec with policy := .A } .last (.event 0b0101001101#10)
      = .ok (.aAppend 0x4D#8) := by rfl
theorem test_decode_aRetrigger :
    decode { Config.spec with policy := .A } .full (.event 0b0101001101#10)
      = .ok (.aRetrigger 0x4D#8) := by rfl
theorem test_decode_aDropFull :
    decode { Config.spec with policy := .A } .full (.event 0b0100000000#10)
      = .ok (.aDropFull 0x00#8) := by rfl
theorem test_decode_full_under_b_refused :
    decode Config.spec .full (.event 0b0100000000#10) = .error .noOperation := by rfl
theorem test_decode_fields :
    ([2, 4, 6, 8, 10, 12, 14, 16, 18, 20, 22, 78, 80].map fun off =>
      match decode Config.spec .empty (.frame16 off 0x1234#16) with
      | .ok i => some i
      | .error _ => none) =
    [some (.accX 0x1234#16), some (.accY 0x1234#16), some (.accZ 0x1234#16),
      some (.gyrX 0x1234#16), some (.gyrY 0x1234#16), some (.gyrZ 0x1234#16),
      some (.magX 0x1234#16), some (.magY 0x1234#16), some (.magZ 0x1234#16),
      some (.baro 0x1234#16), some (.heading 0x1234#16), some (.roll 0x1234#16),
      some (.pitch 0x1234#16)] := by decide
theorem test_decode_unassigned_offset_refused :
    decode Config.spec .empty (.frame16 24 0x1234#16) = .error .unassignedOffset := by rfl
theorem test_decodeNumber_narrow_refused :
    decodeNumber Config.spec .empty 8 0x00 = .error .tooNarrow := by rfl
theorem test_decodeNumber_high_bit_refused :
    decodeNumber Config.spec .empty 16 0x400 = .error .bitsAboveEvent := by rfl
theorem test_frameInstrs_short_refused : frameInstrs [0x4D#8] = .error .frameTooShort := by rfl

/-! ## The assembler: vectors B1 to B12 and A1 to A9 of 95_test_vectors.md section 2 -/

/-- B10, B11. -/
theorem test_reset_discards_partial_frame :
    (nextOf (stepOn 0b1101001101#10 (at154 .B [] 100 7))).map view = some (0, 0, false, false) := by
  decide
/-- B9. -/
theorem test_idle_keeps_partial_frame :
    (nextOf (stepOn noEventWord (at154 .B [] 40 7))).map view = some (40, 7, false, false) := by
  decide
/-- B3. -/
theorem test_bStart :
    (nextOf (exec (.bStart 0x4D#8) (at154 .B [] 0 0))).map (fun t => (view t, t.buf.read 0))
      = some ((1, 0, false, false), 0x4D#8) := by decide
/-- B1. -/
theorem test_bDrop :
    (nextOf (exec (.bDrop 0x00#8) (at154 .B [] 0 0))).map view = some (0, 1, true, false) := by
  decide
/-- B12. -/
theorem test_bDrop_saturates :
    (nextOf (exec (.bDrop 0x00#8) (at154 .B [] 0 65535))).map view
      = some (0, 65535, true, false) := by decide
/-- B5. -/
theorem test_bAppend :
    (nextOf (exec (.bAppend 0xAB#8) (at154 .B [] 152 0))).map (fun t => (view t, t.buf.read 152))
      = some ((153, 0, false, false), 0xAB#8) := by decide
/-- B4: the marker is data inside a Frame. -/
theorem test_bAppend_marker :
    (nextOf (stepOn (feedWord 0x4D#8) (at154 .B [(0, 0x4D#8)] 1 0))).map
      (fun t => (view t, t.buf.read 1)) = some ((2, 0, false, false), 0x4D#8) := by decide
/-- B6, B7 at the shortest length: the trailing marker starts nothing. -/
theorem test_bComplete :
    (nextOf (exec (.bComplete 0x4D#8) (at82 .B 81))).map (fun t => (view t, t.frameLast))
      = some ((0, 0, false, true), some 0x4D#8) := by decide +kernel
/-- 93 U1: the Frame takes bytes nothing has written at any value, and the step completes. -/
theorem test_bComplete_unwritten_bytes :
    (nextOf (exec (.bComplete 0x7F#8) (at154 .B [] 153 0))).map (fun t => (view t, t.frameLast))
      = some ((0, 0, false, true), some 0x7F#8) := by decide +kernel
/-- A2. -/
theorem test_aStart :
    (nextOf (exec (.aStart 0x4D#8) (at154 .A [] 0 0))).map (fun t => (view t, t.buf.read 0))
      = some ((1, 0, false, false), 0x4D#8) := by decide
/-- A1. -/
theorem test_aDropEmpty :
    (nextOf (exec (.aDropEmpty 0x00#8) (at154 .A [] 0 0))).map view = some (0, 1, true, false) := by
  decide
/-- A4: reaching FULL is silent. -/
theorem test_aAppend_reaches_full :
    (nextOf (exec (.aAppend 0x7F#8) (at154 .A [] 153 0))).map
      (fun t => (view t, t.buf.read 153, t.stateClass))
      = some ((154, 0, false, false), 0x7F#8, .full) := by decide
/-- A9: a marker in LAST is data. -/
theorem test_aAppend_marker_in_last :
    (nextOf (stepOn (feedWord 0x4D#8) (at154 .A [] 153 0))).map (fun t => (view t, t.buf.read 153))
      = some ((154, 0, false, false), 0x4D#8) := by decide
/-- A5. -/
theorem test_aDropFull :
    (nextOf (exec (.aDropFull 0x00#8) (at154 .A [] 154 3))).map view
      = some (154, 4, true, false) := by decide
/-- A6 at the shortest length. -/
theorem test_aRetrigger :
    (nextOf (exec (.aRetrigger 0x4D#8) (at82 .A 82))).map
      (fun t => (view t, t.buf.read 0, t.out.frame))
      = some ((1, 0, false, true), 0x4D#8, some frame82) := by decide +kernel
/-- 93 U1. -/
theorem test_aRetrigger_unwritten_bytes :
    (nextOf (exec (.aRetrigger 0x4D#8) (at154 .A [] 154 0))).map
      (fun t => (view t, t.out.frame.map List.length)) = some ((1, 0, false, true), some 154) := by
  decide +kernel
/-- 93 U3. -/
theorem test_feed_in_full_under_b_faults :
    faultOf (stepOn (feedWord 0x00#8) (at154 .B [] 154 0)) = some .bufferOverrun := by decide

/-! ## The decoder: the examples of 41_telemetry_decoder.md and 95_test_vectors.md section 2.3 -/

/-- The Sample outputs after a field instruction. -/
def sampleAfter (i : Instr) : Option SampleOut := (nextOf (exec i State.reset)).map (·.out.sample)

theorem test_accX : (sampleAfter (.accX 0x0010#16)).bind (·.accX) = some (16#16) := by decide
theorem test_accY :
    ((sampleAfter (.accY 0xFFFF#16)).bind (·.accY)).map BitVec.toInt = some (-1) := by decide
theorem test_accZ :
    ((sampleAfter (.accZ 0x0200#16)).bind (·.accZ)).map BitVec.toInt = some 512 := by decide
theorem test_gyrX :
    ((sampleAfter (.gyrX 0x8000#16)).bind (·.gyrX)).map BitVec.toInt = some (-32768) := by decide
theorem test_gyrY :
    ((sampleAfter (.gyrY 0x7FFF#16)).bind (·.gyrY)).map BitVec.toInt = some 32767 := by decide
theorem test_gyrZ :
    ((sampleAfter (.gyrZ 0x0080#16)).bind (·.gyrZ)).map BitVec.toInt = some 128 := by decide
theorem test_magX :
    ((sampleAfter (.magX 0x0007#16)).bind (·.magX)).map BitVec.toInt = some 2 := by decide
theorem test_magY_truncates :
    ((sampleAfter (.magY 0xFFF9#16)).bind (·.magY)).map BitVec.toInt = some (-2) := by decide
theorem test_magZ_extreme :
    ((sampleAfter (.magZ 0x8000#16)).bind (·.magZ)).map BitVec.toInt = some (-10922) := by decide
theorem test_baro :
    ((sampleAfter (.baro 0x03E8#16)).bind (·.baro)).map BitVec.toInt = some 1000 := by decide
theorem test_heading :
    ((sampleAfter (.heading 0xFF4C#16)).bind (·.heading)).map BitVec.toInt = some (-180) := by
  decide
theorem test_roll :
    ((sampleAfter (.roll 0x0064#16)).bind (·.roll)).map BitVec.toInt = some 10 := by decide
theorem test_pitch_truncates :
    ((sampleAfter (.pitch 0xFF9D#16)).bind (·.pitch)).map BitVec.toInt = some (-9) := by decide
theorem test_field16_low_byte_unsigned : field16 [0x80#8, 0x00#8] 0 = some 128 := by decide
theorem test_field16_high_byte_signed : field16 [0x00#8, 0xFF#8] 0 = some (-256) := by decide
theorem test_field16_byte_order : field16 [0x34#8, 0x12#8] 0 = some 4660 := by decide

/-! ## The host's entry points: the word presented is the instruction the next step runs -/

theorem test_withFetchWord_runs_start :
    (nextOf (step (State.reset.withFetchWord 16 0b0101001101))).map
      (fun t => (view t, t.buf, t.pending)) = some ((1, 0, false, false), [(0, 0x4D#8)], []) := by
  decide
theorem test_step_without_input_is_idle :
    (nextOf (step State.reset)).map view = some (0, 0, false, false) := by decide

/-! ## Witnesses: for every statement with hypotheses, a state and operands that meet all of them -/

theorem cells_lookup (bs : List Byte) (i k : Nat) :
    (cells i bs).lookup k = if i ≤ k then bs[k - i]? else none := by
  induction bs generalizing i with
  | nil => simp [cells]
  | cons b bs ih =>
    simp only [cells, Memory.lookup, ih]
    rcases Nat.lt_trichotomy i k with h | rfl | h
    · rw [if_neg (by omega), if_pos (by omega), if_pos (by omega),
        show k - i = k - (i + 1) + 1 by omega, List.getElem?_cons_succ]
    · simp
    · rw [if_neg (by omega), if_neg (by omega), if_neg (by omega)]

theorem cells_above (bs : List Byte) (i lo : Nat) (h : lo < i) : (cells i bs).above lo = true := by
  induction bs generalizing i with
  | nil => rfl
  | cons b bs ih => simp [cells, Memory.above, h, ih (i + 1) (by omega)]

theorem cells_wf (bs : List Byte) (i : Nat) : (cells i bs).wf = true := by
  induction bs generalizing i with
  | nil => rfl
  | cons b bs ih => simp [cells, Memory.wf, cells_above, ih]

theorem cells_below (bs : List Byte) (i n : Nat) (h : i + bs.length ≤ n) :
    (cells i bs).below n = true := by
  induction bs generalizing i with
  | nil => rfl
  | cons b bs ih =>
    simp only [List.length_cons] at h
    simp [cells, Memory.below, ih (i + 1) (by omega), show i < n by omega]

theorem prefixBytes_length (n : Nat) : (prefixBytes n).length = n := by
  cases n <;> simp [prefixBytes]

/-- The states `at82 p n` meet the invariant, for every cursor of the policy's range. -/
theorem at82_inv (p : Policy) (n : Nat) (h : n < 82 ∨ p = .A ∧ n = 82) : (at82 p n).Inv where
  cfgOk := rfl
  cursor := by
    cases p
    · show n ≤ 82
      omega
    · show n < 82
      rcases h with h | ⟨hp, -⟩
      · exact h
      · cases hp
  canonical := cells_wf _ _
  inRange := cells_below _ _ _ (by rw [prefixBytes_length]; show 0 + n ≤ 82; omega)
  written := fun i hi => by
    show ((cells 0 (prefixBytes n)).lookup i).isSome = true
    have hi' : i < (prefixBytes n).length := by rw [prefixBytes_length]; exact hi
    rw [cells_lookup]
    simp [hi']
  marked := fun hn => by
    show (cells 0 (prefixBytes n)).read 0 = 0x4D#8
    cases n with
    | zero => cases hn
    | succ n => simp [prefixBytes, cells, Memory.read, Memory.lookup]
  counter := by
    show 0 < 2 ^ 16
    decide

/-- The front of `at82 p n`. -/
theorem at82_front (p : Policy) (n : Nat) :
    (at82 p n).buf.readRange 0 n = prefixBytes n := by
  refine Memory.readRange_eq.2 ⟨prefixBytes_length n, fun k hk => ?_⟩
  have hk' : k < (prefixBytes n).length := by rw [prefixBytes_length]; exact hk
  show _ = some ((cells 0 (prefixBytes n)).read (0 + k))
  simp [Memory.read, cells_lookup, List.getElem?_eq_getElem hk']

theorem frame82_framed (p : Policy) : Framed (at82 p 0).cfg frame82 := ⟨rfl, rfl⟩

theorem frame82_payload_clean (p : Policy) : PayloadClean (at82 p 0).cfg frame82 := by
  intro b hb
  obtain rfl : b = 0#8 := List.eq_of_mem_replicate hb
  show (0#8 : Byte) ≠ 0x4D#8
  decide

theorem gap_witness (p : Policy) : Gap (at82 p 0).cfg [0x00#8, 0x4C#8] := by
  show ∀ b ∈ [0x00#8, 0x4C#8], b ≠ 0x4D#8
  decide

/-- A stream of two Frames with gaps, meeting H0 and H1. -/
def stream82 : List (Frame × List Byte) := [(frame82, [0x00#8, 0x4C#8]), (frame82, [])]

theorem stream82_ok (p : Policy) :
    ∀ q ∈ stream82, Framed (at82 p 0).cfg q.1 ∧ Gap (at82 p 0).cfg q.2 ∧
      PayloadClean (at82 p 0).cfg q.1 := by
  intro q hq
  simp only [stream82, List.mem_cons, List.not_mem_nil, or_false] at hq
  rcases hq with rfl | rfl
  · exact ⟨frame82_framed p, gap_witness p, frame82_payload_clean p⟩
  · exact ⟨frame82_framed p, fun b hb => absurd hb List.not_mem_nil, frame82_payload_clean p⟩

/-- A next state with a Frame, read off the outcome. -/
theorem emission_of {r : Result} (h : ((nextOf r).bind (·.out.frame)).isSome = true) :
    ∃ t F, r = .next t ∧ t.out.frame = some F := by
  cases r with
  | next t => exact ⟨t, _, rfl, (Option.isSome_iff_exists.1 h).choose_spec⟩
  | fault e => cases h
  | refused e => cases h

/-- `B.COMPLETE` of the shortest Frame emits. -/
theorem emission_B : ∃ t F, stepOn (feedWord 0x4D#8) (at82 .B 81) = .next t ∧
    t.out.frame = some F := emission_of (by decide +kernel)

/-- `A.RETRIGGER` of the shortest Frame emits. -/
theorem emission_A : ∃ t F, stepOn (feedWord 0x4D#8) (at82 .A 82) = .next t ∧
    t.out.frame = some F := emission_of (by decide +kernel)

theorem witness_ResetClearsCursorAndCounter : (0x24D#10 : EventWord).getLsbD 9 = true := by decide

theorem witness_ResetStateAndEarliestFrame :
    ((at82 .B 81).Inv ∧ (at82 .B 81).cfg.policy = .B ∧ (prefixBytes 81).length < 82) ∧
    ((at82 .A 82).Inv ∧ (at82 .A 82).cfg.policy = .A ∧ (prefixBytes 82).length < 82 + 1) :=
  ⟨⟨at82_inv _ _ (by decide), rfl, by decide⟩, at82_inv _ _ (by decide), rfl, by decide⟩

theorem witness_IdleChangesNothing :
    (0x04D#10 : EventWord).getLsbD 9 = false ∧ (0x04D#10 : EventWord).getLsbD 8 = false ∧
    ∀ w ∈ [0x000#10, (0x0FF#10 : EventWord)], w.getLsbD 9 = false ∧ w.getLsbD 8 = false := by
  decide

theorem witness_BStartStoresMarker :
    (at82 .B 0).cfg.policy = .B ∧ (at82 .B 0).fillIndex = 0 ∧ 82 ≤ (at82 .B 0).cfg.frameLength := by
  decide

theorem witness_BDropDiscardsByte :
    (at82 .B 0).cfg.policy = .B ∧ (at82 .B 0).fillIndex = 0 ∧
      (0x4C#8 : Byte) ≠ (at82 .B 0).cfg.marker := by decide

theorem witness_BAppendStoresAtCursor_first :
    (at82 .B 1).cfg.policy = .B ∧ 0 < (at82 .B 1).fillIndex ∧
      (at82 .B 1).fillIndex < (at82 .B 1).cfg.frameLength - 1 := by decide

theorem witness_BAppendStoresAtCursor_last :
    (at82 .B 80).cfg.policy = .B ∧ 0 < (at82 .B 80).fillIndex ∧
      (at82 .B 80).fillIndex < (at82 .B 80).cfg.frameLength - 1 := ⟨rfl, by decide, by decide⟩

theorem witness_BCompleteEmitsFrame :
    (at82 .B 81).cfg.policy = .B ∧ 0 < (at82 .B 81).fillIndex ∧
      (at82 .B 81).fillIndex = (at82 .B 81).cfg.frameLength - 1 ∧
      (at82 .B 81).buf.read 0 = (at82 .B 81).cfg.marker :=
  ⟨rfl, by decide, rfl, rfl⟩

theorem witness_AStartStoresMarker :
    (at82 .A 0).cfg.policy = .A ∧ (at82 .A 0).fillIndex = 0 ∧ 82 ≤ (at82 .A 0).cfg.frameLength := by
  decide

theorem witness_ADropEmptyDiscardsByte :
    (at82 .A 0).cfg.policy = .A ∧ (at82 .A 0).fillIndex = 0 ∧
      (0xFF#8 : Byte) ≠ (at82 .A 0).cfg.marker := by decide

theorem witness_ADropFullKeepsFrame :
    (at82 .A 82).cfg.policy = .A ∧ 0 < (at82 .A 82).fillIndex ∧
      (at82 .A 82).fillIndex = (at82 .A 82).cfg.frameLength ∧
      (0x00#8 : Byte) ≠ (at82 .A 82).cfg.marker := ⟨rfl, by decide, rfl, by decide⟩

theorem witness_AAppendStoresAtCursor_first :
    (at82 .A 1).cfg.policy = .A ∧ 0 < (at82 .A 1).fillIndex ∧
      (at82 .A 1).fillIndex < (at82 .A 1).cfg.frameLength := by decide

theorem witness_AAppendStoresAtCursor_last :
    (at82 .A 81).cfg.policy = .A ∧ 0 < (at82 .A 81).fillIndex ∧
      (at82 .A 81).fillIndex < (at82 .A 81).cfg.frameLength ∧
      (at82 .A 81).fillIndex = (at82 .A 81).cfg.frameLength - 1 :=
  ⟨rfl, by decide, by decide, rfl⟩

theorem witness_ARetriggerEmitsAndRestarts :
    (at82 .A 82).cfg.policy = .A ∧ (at82 .A 82).fillIndex = (at82 .A 82).cfg.frameLength ∧
      82 ≤ (at82 .A 82).cfg.frameLength ∧
      (at82 .A 82).buf.read 0 = (at82 .A 82).cfg.marker :=
  ⟨rfl, rfl, by decide, rfl⟩

theorem witness_OperationsStopWhereNotSelected :
    encode (.aRetrigger 0x4D#8) = .event (feedWord 0x4D#8) ∧
      (Instr.wf (at82 .A 0).cfg (.aRetrigger 0x4D#8)
        && Instr.classOk (at82 .A 0).stateClass (.aRetrigger 0x4D#8)) = false := by decide

theorem witness_AssemblerLeavesSampleAbsent :
    (∃ t, encode (.bStart 0x4D#8) = .event 0x14D#10 ∧ exec (.bStart 0x4D#8) (at82 .B 0) = .next t) ∧
    ∃ t, encode (.aRetrigger 0x4D#8) = .event 0x14D#10 ∧
      exec (.aRetrigger 0x4D#8) (at82 .A 82) = .next t := ⟨⟨_, rfl, rfl⟩, _, rfl, rfl⟩

theorem witness_FieldRule :
    ([0x4D#8, 0x00#8, 0x10#8, 0x00#8] : Frame)[2]? = some 0x10#8 ∧
      ([0x4D#8, 0x00#8, 0x10#8, 0x00#8] : Frame)[2 + 1]? = some 0x00#8 := by decide

theorem witness_FieldRule_pitch : frame82[80]? = some 0x00#8 ∧ frame82[80 + 1]? = some 0x00#8 :=
  ⟨rfl, rfl⟩

theorem witness_Field16IsSignedLittleEndian : 0 + 1 < ([0x00#8, 0x80#8] : Frame).length := by decide

theorem witness_DivisionTruncatesTowardZero :
    -32768 ≤ (-32768 : Int) ∧ (-32768 : Int) ≤ 32767 ∧ ((10 : Int) = 3 ∨ (10 : Int) = 10) ∧
      (-32768 : Int) = -3276 * 10 + -8 ∧ (-8 : Int).natAbs < (10 : Int).natAbs ∧
      (0 ≤ (-32768 : Int) → 0 ≤ (-8 : Int)) ∧ ((-32768 : Int) ≤ 0 → (-8 : Int) ≤ 0) := by decide

theorem witness_DecodeTotalWithoutMarkerCheck : 82 ≤ frame82.length := by
  rw [frame82, prefixBytes_length]

theorem witness_DecodeIgnoresUnassignedBytes :
    ∀ i, (2 ≤ i ∧ i ≤ 23) ∨ (78 ≤ i ∧ i ≤ 81) → frame82[i]? = (frame82.set 1 0xAA#8)[i]? := by
  intro i hi
  rw [List.getElem?_set_ne (by omega)]

theorem witness_SampleRangesAndRoundTrip :
    (∃ x, decodeSample frame82 = some x) ∧
    (-32768 ≤ (-2 : Int) ∧ (-2 : Int) ≤ 32767 ∧
      ([0xFE#8, 0xFF#8] : Frame)[0]? = some (BitVec.ofNat 8 (((-2 : Int) % 65536).toNat % 256)) ∧
      ([0xFE#8, 0xFF#8] : Frame)[0 + 1]?
        = some (BitVec.ofNat 8 (((-2 : Int) % 65536).toNat / 256))) ∧
    (-10922 ≤ (-10922 : Int) ∧ (-10922 : Int) ≤ 10922) ∧
    (-3276 ≤ (3276 : Int) ∧ (3276 : Int) ≤ 3276) :=
  ⟨⟨_, rfl⟩, by decide, by decide, by decide⟩

theorem witness_SelectionIsExhaustiveAndExclusive :
    StateClass.full ≠ .overrun ∧ (StateClass.full = .full → (at82 .A 0).cfg.policy = .A) := by decide

theorem witness_DecodeAndEncodeAgree :
    Instr.wf Config.spec (.bDrop 0x00#8) = true ∧ Instr.classOk .empty (.bDrop 0x00#8) = true ∧
      decode Config.spec .empty (.event 0x100#10) = .ok (.bDrop 0x00#8) := ⟨by decide, by decide, rfl⟩

theorem witness_StepRunsDecodedInstruction :
    ∃ (s u : State) (is : List Instr), s.pending = [0x14D#10] ∧
      decode s.cfg s.stateClass (.event 0x14D#10) = .ok (.bStart 0x4D#8) ∧
      u.pending = [] ∧ u.out.frame = some frame82 ∧ frameInstrs frame82 = .ok is :=
  ⟨{ at82 .B 0 with pending := [0x14D#10] },
    { at82 .B 0 with out := { Output.quiet with frame := some frame82 } }, _, rfl, rfl, rfl, rfl, rfl⟩

theorem witness_StepRunsDecodedInstruction_no_frame : (at82 .B 0).out.frame = none := rfl

theorem witness_StepKeepsInvariant : ∃ t, (at82 .B 0).Inv ∧ step (at82 .B 0) = .next t :=
  ⟨_, at82_inv _ _ (by decide), rfl⟩

theorem witness_StepNeverStops : (at82 .A 82).Inv ∧ (at82 .B 81).Inv :=
  ⟨at82_inv _ _ (by decide), at82_inv _ _ (by decide)⟩

theorem witness_ParametersNeverChange :
    ∃ t, step { at82 .B 0 with pending := [0x14D#10] } = .next t := ⟨_, rfl⟩

/-- A state in EMPTY whose index 0 holds a stale byte other than the marker. -/
def stale82 : State := { at82 .B 0 with buf := [(0, 0x11#8)] }

theorem witness_StepStoresOnlyAtCursor :
    ∃ t, stepOn (feedWord 0x4D#8) stale82 = .next t ∧ t.buf.read 0 ≠ stale82.buf.read 0 :=
  ⟨_, rfl, by decide⟩

theorem witness_BufferIsArrayOfFrameLengthBytes :
    ∃ t, stepOn (feedWord 0x4D#8) stale82 = .next t ∧ t.bufByte 0 ≠ stale82.bufByte 0 ∧
      t.out.frame = none := ⟨_, rfl, by decide, rfl⟩

theorem witness_CounterCountsDrops :
    ∃ t, stepOn (feedWord 0x00#8) (at82 .B 0) = .next t ∧
      (at82 .B 0).desyncCount < 2 ^ (at82 .B 0).cfg.diagWidth := ⟨_, rfl, by decide⟩

theorem witness_DesyncErrorCauseAndEffect :
    (∃ t, stepOn (feedWord 0x00#8) (at82 .B 0) = .next t ∧ t.out.dropped = true) ∧
    (∃ t, stepOn (feedWord 0x00#8) (at82 .A 82) = .next t ∧ t.out.dropped = true) ∧
    ∃ t, stepOn noEventWord (at82 .B 0) = .next t ∧ t.out.dropped = false ∧
      decodeEvent noEventWord ≠ .reset :=
  ⟨⟨_, rfl, rfl⟩, ⟨_, rfl, rfl⟩, _, rfl, rfl, by decide⟩

theorem witness_EmissionOnlyAtCompletionOrRetrigger_B :
    ∃ t F, stepOn (feedWord 0x4D#8) (at82 .B 81) = .next t ∧ t.out.frame = some F :=
  emission_B

theorem witness_EmissionOnlyAtCompletionOrRetrigger_A :
    ∃ t F, stepOn (feedWord 0x4D#8) (at82 .A 82) = .next t ∧ t.out.frame = some F :=
  emission_A

theorem witness_EmittedFrameBeginsWithMarker :
    ∃ t F, (at82 .B 81).Inv ∧ stepOn (feedWord 0x4D#8) (at82 .B 81) = .next t ∧
      t.out.frame = some F := by
  obtain ⟨t, F, ht, hF⟩ := emission_B
  exact ⟨t, F, at82_inv _ _ (by decide), ht, hF⟩

theorem witness_SampleOutputsAreDecodedFrame :
    (∃ t, stepOn noEventWord (at82 .B 0) = .next t ∧ t.out.frame = none) ∧
    ∃ t F, stepOn (feedWord 0x4D#8) (at82 .B 81) = .next t ∧ t.out.frame = some F :=
  ⟨⟨_, rfl, rfl⟩, emission_B⟩

theorem witness_StateMachineEdges_classes :
    ((at82 .B 0).Inv ∧ (at82 .B 0).stateClass = .empty) ∧
    ((at82 .B 1).Inv ∧ (at82 .B 1).stateClass = .filling) ∧
    ((at82 .A 80).Inv ∧ (at82 .A 80).stateClass = .filling) ∧
    ((at82 .B 81).Inv ∧ (at82 .B 81).stateClass = .last) ∧
    ((at82 .A 81).Inv ∧ (at82 .A 81).stateClass = .last) ∧
    ((at82 .A 82).Inv ∧ (at82 .A 82).stateClass = .full) :=
  ⟨⟨at82_inv _ _ (by decide), rfl⟩, ⟨at82_inv _ _ (by decide), rfl⟩,
    ⟨at82_inv _ _ (by decide), rfl⟩, ⟨at82_inv _ _ (by decide), rfl⟩,
    ⟨at82_inv _ _ (by decide), rfl⟩, at82_inv _ _ (by decide), rfl⟩

theorem witness_StepRefinesPolicySummary : (at82 .A 82).Inv := at82_inv _ _ (by decide)

theorem witness_FeedBeyondCapacityFaults :
    (0 < (at154 .B [] 154 0).fillIndex ∧ (at154 .B [] 154 0).cfg.policy = .B ∧
      (at154 .B [] 154 0).fillIndex = (at154 .B [] 154 0).cfg.frameLength) ∧
    (0 < (at154 .A [] 155 0).fillIndex ∧
      (at154 .A [] 155 0).cfg.frameLength < (at154 .A [] 155 0).fillIndex) :=
  ⟨⟨by decide, rfl, rfl⟩, by decide, by decide⟩

theorem witness_ChunkEmissionBound :
    (at82 .A 82).Inv ∧ (prefixBytes 82).length ≤ (at82 .A 82).cfg.frameLength :=
  ⟨at82_inv _ _ (by decide), by rw [prefixBytes_length]; decide⟩

theorem witness_ChunkingIndependence :
    ∃ t outs, chunk ([(2, [0x4D#8]), (0, []), (1, [0x01#8])].flatMap fun c => c.2) (at82 .B 0)
      = .next (t, outs) := ⟨_, _, rfl⟩

theorem witness_StaleBytesNeverReachOutput :
    ∃ t outs, SameButStale (at82 .B 0) { at82 .B 0 with buf := [(5, 0xAA#8)] } ∧
      runEvents [feedWord 0x4D#8] (at82 .B 0) = .next (t, outs) :=
  ⟨_, _, ⟨rfl, rfl, rfl, rfl, rfl, fun _ hi => by cases hi⟩, rfl⟩

theorem witness_StreamOrderIsIndexOrder :
    (at82 .B 0).Inv ∧ (at82 .B 0).fillIndex = 0 ∧
      (prefixBytes 81)[0]? = some (at82 .B 0).cfg.marker ∧
      (prefixBytes 81).length < (at82 .B 0).cfg.frameLength :=
  ⟨at82_inv _ _ (by decide), rfl, rfl, by rw [prefixBytes_length]; decide⟩

theorem witness_AlignedStreamPolicyB :
    (at82 .B 0).Inv ∧ (at82 .B 0).cfg.policy = .B ∧ (at82 .B 0).fillIndex = 0 ∧
      ∀ q ∈ stream82, Framed (at82 .B 0).cfg q.1 ∧ Gap (at82 .B 0).cfg q.2 :=
  ⟨at82_inv _ _ (by decide), rfl, rfl, fun q hq => ⟨(stream82_ok .B q hq).1, (stream82_ok .B q hq).2.1⟩⟩

theorem witness_AlignedStreamPolicyA_empty :
    (at82 .A 0).Inv ∧ (at82 .A 0).cfg.policy = .A ∧
      ((at82 .A 0).fillIndex = 0 ∧ (none : Option Frame) = none) ∧
      (∀ q ∈ stream82, Framed (at82 .A 0).cfg q.1 ∧ Gap (at82 .A 0).cfg q.2) ∧ stream82 ≠ [] :=
  ⟨at82_inv _ _ (by decide), rfl, ⟨rfl, rfl⟩,
    fun q hq => ⟨(stream82_ok .A q hq).1, (stream82_ok .A q hq).2.1⟩, by simp [stream82]⟩

theorem witness_AlignedStreamPolicyA_full :
    (at82 .A 82).Inv ∧ (at82 .A 82).cfg.policy = .A ∧
      ((at82 .A 82).fillIndex = (at82 .A 82).cfg.frameLength ∧
        some frame82 = some (at82 .A 82).snapshot) ∧
      (∀ q ∈ stream82, Framed (at82 .A 82).cfg q.1 ∧ Gap (at82 .A 82).cfg q.2) ∧ stream82 ≠ [] :=
  ⟨at82_inv _ _ (by decide), rfl, ⟨rfl, congrArg some (at82_front .A 82).symm⟩,
    fun q hq => ⟨(stream82_ok .A q hq).1, (stream82_ok .A q hq).2.1⟩, by simp [stream82]⟩

theorem witness_BoundedReturn (p : Policy) :
    (at82 p 40).Inv ∧ 0 < (at82 p 40).fillIndex ∧
      (at82 p 40).fillIndex < (at82 p 40).cfg.frameLength ∧
      (at82 p 40).buf.readRange 0 (at82 p 40).fillIndex = prefixBytes 40 ∧
      (prefixBytes 42).length = (at82 p 40).cfg.frameLength - (at82 p 40).fillIndex :=
  ⟨at82_inv _ _ (.inl (by decide)), by show 0 < 40; decide, by show 40 < 82; decide,
    at82_front p 40, rfl⟩

theorem witness_RecoveryPolicyB :
    (at82 .B 81).Inv ∧ (at82 .B 81).cfg.policy = .B ∧ 0 < (at82 .B 81).fillIndex ∧
      (at82 .B 81).buf.readRange 0 (at82 .B 81).fillIndex = prefixBytes 81 ∧
      ∀ q ∈ stream82, Framed (at82 .B 81).cfg q.1 ∧ Gap (at82 .B 81).cfg q.2 ∧
        PayloadClean (at82 .B 81).cfg q.1 :=
  ⟨at82_inv _ _ (by decide), rfl, by decide, at82_front .B 81, stream82_ok .B⟩

theorem witness_RecoveryPolicyA :
    (at82 .A 1).Inv ∧ (at82 .A 1).cfg.policy = .A ∧ 0 < (at82 .A 1).fillIndex ∧
      (at82 .A 1).fillIndex < (at82 .A 1).cfg.frameLength ∧
      (at82 .A 1).buf.readRange 0 (at82 .A 1).fillIndex = prefixBytes 1 ∧
      ∀ q ∈ stream82, Framed (at82 .A 1).cfg q.1 ∧ Gap (at82 .A 1).cfg q.2 ∧
        PayloadClean (at82 .A 1).cfg q.1 :=
  ⟨at82_inv _ _ (by decide), rfl, by decide, by decide, at82_front .A 1, stream82_ok .A⟩

/-- A Frame of 82 bytes with the marker at offset 3. -/
def locking82 : Frame := [0x4D#8, 0x01#8, 0x11#8, 0x4D#8] ++ List.replicate 78 0x33#8

theorem witness_FalseLockNeverEnds :
    (at82 .B 0).Inv ∧ Framed (at82 .B 0).cfg locking82 ∧ 1 ≤ 1 ∧ 1 ≤ 3 ∧
      3 < (at82 .B 0).cfg.frameLength ∧ locking82[3]? = some (at82 .B 0).cfg.marker ∧
      (∀ i, 1 ≤ i → i < 3 → locking82[i]? ≠ some (at82 .B 0).cfg.marker) ∧
      ((at82 .B 0).fillIndex = 0 ∧ (none : Option Frame) = none) := by
  refine ⟨at82_inv _ _ (by decide), ⟨rfl, rfl⟩, by decide, by decide, by decide, rfl, ?_, rfl, rfl⟩
  intro i h1 h2
  obtain rfl | rfl : i = 1 ∨ i = 2 := by omega
  · show some (0x01#8 : Byte) ≠ some 0x4D#8
    decide
  · show some (0x11#8 : Byte) ≠ some 0x4D#8
    decide

theorem witness_FalseLockNeverEnds_full :
    (at82 .A 82).Inv ∧ Framed (at82 .A 82).cfg locking82 ∧
      (at82 .A 82).cfg.policy = .A ∧ (at82 .A 82).fillIndex = (at82 .A 82).cfg.frameLength ∧
      some frame82 = some (at82 .A 82).snapshot :=
  ⟨at82_inv _ _ (by decide), ⟨rfl, rfl⟩, rfl, rfl, congrArg some (at82_front .A 82).symm⟩

theorem witness_OneFrameFromOneValidFrame :
    ((at82 .B 40).Inv ∧ Framed (at82 .B 40).cfg frame82) ∧
    ((at82 .B 0).Inv ∧ Framed (at82 .B 0).cfg frame82 ∧ (at82 .B 0).fillIndex = 0) ∧
    ((at82 .A 82).Inv ∧ Framed (at82 .A 82).cfg frame82 ∧
      (at82 .A 82).fillIndex = (at82 .A 82).cfg.frameLength) :=
  ⟨⟨at82_inv _ _ (by decide), frame82_framed .B⟩,
    ⟨at82_inv _ _ (by decide), frame82_framed .B, rfl⟩,
    at82_inv _ _ (by decide), frame82_framed .A, rfl⟩

theorem witness_FrameDataSignal :
    ∃ s : State, s.out.frame = some frame82 ∧ frame82.length = s.cfg.frameLength :=
  ⟨{ at82 .B 0 with out := { Output.quiet with frame := some frame82 } }, rfl, rfl⟩

theorem witness_StatusSignals :
    ∃ s : State, s.Inv ∧ s.out.frame = some frame82 ∧ frame82.length = s.cfg.frameLength :=
  ⟨{ at82 .B 81 with out := { Output.quiet with frame := some frame82 } },
    { cfgOk := rfl
      cursor := (at82_inv .B 81 (by decide)).cursor
      canonical := (at82_inv .B 81 (by decide)).canonical
      inRange := (at82_inv .B 81 (by decide)).inRange
      written := (at82_inv .B 81 (by decide)).written
      marked := (at82_inv .B 81 (by decide)).marked
      counter := by decide }, rfl, rfl⟩

end Sys2Proof.Tests
end

section
/-! The frame of a step: the parameters and the events yet to be presented (00_scope.md R8). -/

namespace Sys2Proof.Machine

open Sys2Proof

/-- 00_scope.md R8 for `FEED`: drop, store, complete and re-trigger are all it can do. -/
theorem FeedCase.cfg_pending_eq {s u : State} {b : Byte} (h : FeedCase s b u) :
    u.cfg = s.cfg ∧ u.pending = s.pending := by
  cases h with
  | drop => simp
  | store => simp
  | complete => simp
  | retrigger => simp

/-- 00_scope.md R8 for the operation of any event. -/
theorem EventCase.cfg_pending_eq {s u : State} {ev : Event} (h : EventCase s ev u) :
    u.cfg = s.cfg ∧ u.pending = s.pending := by
  cases h with
  | reset => simp
  | idle => simp
  | feed _ _ hfeed => exact hfeed.cfg_pending_eq

/-- The decoder's part of the step changes only the Sample outputs, so R8 holds of the whole step. -/
theorem stepOn_cfg_pending_eq {w : EventWord} {s t : State} (h : stepOn w s = .next t) :
    t.cfg = s.cfg ∧ t.pending = s.pending := by
  obtain ⟨u, f, hcase, rfl⟩ := stepOn_cases h
  simpa using hcase.cfg_pending_eq

/-- Settles O33: the frame of `stepOn`, on the state without the event that the step takes. -/
theorem parametersNeverChange : Obligations.ParametersNeverChange := by
  intro s t h
  cases hp : s.pending with
  | nil =>
    rw [step_of_no_pending hp] at h
    simpa [hp] using stepOn_cfg_pending_eq h
  | cons w ws =>
    rw [step_of_pending hp] at h
    simpa using stepOn_cfg_pending_eq h

end Sys2Proof.Machine
end

section
/-! A step exactly: each case of `EventCase` is not only all an event can do, it is what the event does,
and the decoder's part depends on the emitted Frame alone. -/

namespace Sys2Proof.Machine

open Sys2Proof

theorem State.stateClass_eq_empty {s : State} : s.stateClass = .empty ↔ s.fillIndex = 0 :=
  classOf_eq_empty

theorem State.stateClass_eq_filling {s : State} :
    s.stateClass = .filling ↔ 0 < s.fillIndex ∧ s.fillIndex + 1 < s.cfg.frameLength :=
  classOf_eq_filling

theorem State.stateClass_eq_last {s : State} :
    s.stateClass = .last ↔ 0 < s.fillIndex ∧ s.fillIndex + 1 = s.cfg.frameLength :=
  classOf_eq_last

theorem State.stateClass_eq_full {s : State} :
    s.stateClass = .full ↔ 0 < s.fillIndex ∧ s.fillIndex = s.cfg.frameLength :=
  classOf_eq_full

/-- An event's one operation, executed in this state, gives `u` (40_frame_assembler.md R70). -/
def Answers (s : State) (ev : Event) (u : State) : Prop :=
  ∃ i, select s.cfg s.stateClass ev = some i ∧ exec i s = .next u

/-- A byte other than the marker is dropped in EMPTY (R72, R76). -/
theorem answers_drop_empty {s : State} {b : Byte} (hb : b ≠ s.cfg.marker) (h0 : s.fillIndex = 0) :
    Answers s (.feed b) s.clearOut.noteDrop := by
  have hc := State.stateClass_eq_empty.2 h0
  cases hp : s.cfg.policy with
  | A => exact ⟨.aDropEmpty b, by simp [select, selectA, hp, hc, hb],
      by simp [exec, execADropEmpty, hp, hc, hb]⟩
  | B => exact ⟨.bDrop b, by simp [select, selectB, hp, hc, hb], by simp [exec, execBDrop, hp, hc, hb]⟩

/-- A byte other than the marker is dropped in FULL (R79). -/
theorem answers_drop_full {s : State} {b : Byte} (hb : b ≠ s.cfg.marker) (hp : s.cfg.policy = .A)
    (hc : s.stateClass = .full) : Answers s (.feed b) s.clearOut.noteDrop :=
  ⟨.aDropFull b, by simp [select, selectA, hp, hc, hb], by simp [exec, execADropFull, hp, hc, hb]⟩

/-- The marker is stored in EMPTY (R73, R77). -/
theorem answers_start {s : State} {b : Byte} (hb : b = s.cfg.marker) (h0 : s.fillIndex = 0)
    (hlt : s.fillIndex < s.cfg.frameLength) : Answers s (.feed b) (s.clearOut.store b) := by
  have hc := State.stateClass_eq_empty.2 h0
  cases hp : s.cfg.policy with
  | A => exact ⟨.aStart b, by simp [select, selectA, hp, hc, hb],
      by simp [exec, execAStart, hp, hc, hb, append_eq_next, hlt]⟩
  | B => exact ⟨.bStart b, by simp [select, selectB, hp, hc, hb],
      by simp [exec, execBStart, hp, hc, hb, append_eq_next, hlt]⟩

/-- Any byte is stored in FILLING (R74, R78). -/
theorem answers_append_filling {s : State} {b : Byte} (hc : s.stateClass = .filling)
    (hlt : s.fillIndex < s.cfg.frameLength) : Answers s (.feed b) (s.clearOut.store b) := by
  cases hp : s.cfg.policy with
  | A => exact ⟨.aAppend b, by simp [select, selectA, hp, hc],
      by simp [exec, execAAppend, hp, hc, append_eq_next, hlt]⟩
  | B => exact ⟨.bAppend b, by simp [select, selectB, hp, hc],
      by simp [exec, execBAppend, hp, hc, append_eq_next, hlt]⟩

/-- Under Policy A any byte is stored in LAST (R78). -/
theorem answers_append_last {s : State} {b : Byte} (hp : s.cfg.policy = .A)
    (hc : s.stateClass = .last) (hlt : s.fillIndex < s.cfg.frameLength) :
    Answers s (.feed b) (s.clearOut.store b) :=
  ⟨.aAppend b, by simp [select, selectA, hp, hc],
    by simp [exec, execAAppend, hp, hc, append_eq_next, hlt]⟩

/-- Under Policy B any byte completes the Frame in LAST (R75). -/
theorem answers_complete {s : State} {b : Byte} (hp : s.cfg.policy = .B) (hc : s.stateClass = .last)
    (hlt : s.fillIndex < s.cfg.frameLength) :
    Answers s (.feed b) ((s.clearOut.store b).emit.setFill 0) :=
  ⟨.bComplete b, by simp [select, selectB, hp, hc],
    by simp [exec, execBComplete, hp, hc, append_eq, hlt]⟩

/-- Under Policy A the marker re-triggers in FULL (R80). -/
theorem answers_retrigger {s : State} {b : Byte} (hp : s.cfg.policy = .A) (hc : s.stateClass = .full)
    (hlen : 0 < s.cfg.frameLength) (hb : b = s.cfg.marker) :
    Answers s (.feed b) ((s.clearOut.emit.setFill 0).store b) :=
  ⟨.aRetrigger b, by simp [select, selectA, hp, hc, hb],
    by simp [exec, execARetrigger, hp, hc, hb, append_eq_next, hlen]⟩

/-- Where a case of `FEED b` applies, the operation that `FEED b` selects does what the case says. -/
theorem FeedCase.answers {s u : State} {b : Byte} (h : FeedCase s b u) : Answers s (.feed b) u := by
  cases h with
  | drop hb hc =>
    by_cases h0 : s.fillIndex = 0
    · exact answers_drop_empty hb h0
    · obtain ⟨hp, hfull⟩ := hc.resolve_left h0
      exact answers_drop_full hb hp (State.stateClass_eq_full.2 ⟨Nat.pos_of_ne_zero h0, hfull⟩)
  | store hlt hb hB =>
    by_cases h0 : s.fillIndex = 0
    · exact answers_start (hb h0) h0 hlt
    · have hpos := Nat.pos_of_ne_zero h0
      by_cases hlast : s.fillIndex + 1 = s.cfg.frameLength
      · have hp : s.cfg.policy = .A := by
          cases hp : s.cfg.policy with
          | A => rfl
          | B => have := hB hp hpos; omega
        exact answers_append_last hp (State.stateClass_eq_last.2 ⟨hpos, hlast⟩) hlt
      · exact answers_append_filling (State.stateClass_eq_filling.2 ⟨hpos, by omega⟩) hlt
  | complete hp hpos hlast =>
    exact answers_complete hp (State.stateClass_eq_last.2 ⟨hpos, hlast⟩) (by omega)
  | retrigger hp hpos hfull hb =>
    exact answers_retrigger hp (State.stateClass_eq_full.2 ⟨hpos, hfull⟩) (by omega) hb

/-- `EventCase` is exactly what the operation of an event does. -/
theorem answers_iff {s u : State} {ev : Event} : Answers s ev u ↔ EventCase s ev u := by
  constructor
  · rintro ⟨i, hi, hu⟩
    exact exec_selected_cases hi hu
  · intro h
    cases h with
    | reset => exact ⟨.reset, rfl, rfl⟩
    | idle => exact ⟨.idle, rfl, rfl⟩
    | feed _ _ hfeed => exact hfeed.answers

/-- A step answers exactly what the case of its event and then the decoder say. -/
theorem stepOn_iff {w : EventWord} {s t : State} :
    stepOn w s = .next t ↔ ∃ u, EventCase s (decodeEvent w) u ∧ sampleOutputs u = .next t := by
  rw [stepOn_eq_next]
  constructor
  · rintro ⟨i, u, hi, hu, ht⟩
    exact ⟨u, answers_iff.1 ⟨i, hi, hu⟩, ht⟩
  · rintro ⟨u, hcase, ht⟩
    obtain ⟨i, hi, hu⟩ := answers_iff.2 hcase
    exact ⟨i, u, hi, hu, ht⟩

/-- The decoder makes the same change of the Sample outputs in every state with the same Frame
(41_telemetry_decoder.md R110). -/
theorem sampleOutputs_uniform {u t : State} (h : sampleOutputs u = .next t) :
    ∃ f, t = u.mapSample f ∧
      ∀ v : State, v.out.frame = u.out.frame → sampleOutputs v = .next (v.mapSample f) := by
  cases hF : u.out.frame with
  | none =>
    rw [sampleOutputs_of_none hF] at h
    exact ⟨id, (Host.Outcome.next.inj h).symm, fun v hv => sampleOutputs_of_none hv⟩
  | some F =>
    simp only [sampleOutputs, hF] at h
    cases his : frameInstrs F with
    | error e => simp [his] at h
    | ok is =>
      obtain ⟨f, hf⟩ := execAll_fields his
      simp only [his, hf] at h
      exact ⟨f, (Host.Outcome.next.inj h).symm, fun v hv => by simp only [sampleOutputs, hv, his, hf]⟩

end Sys2Proof.Machine
end

section
/-! The invariant of a resting state (20_memory.md R38, 40_frame_assembler.md R86, 10_state.md R11, R12):
one rule per update of the state, then the cases of an event, then the step. -/

namespace Sys2Proof.Machine

open Sys2Proof

section

variable {s : State}

theorem State.cursorOk_iff : s.cursorOk ↔
    s.fillIndex ≤ s.cfg.frameLength ∧ (s.cfg.policy = .B → s.fillIndex < s.cfg.frameLength) := by
  unfold State.cursorOk
  split
  · rename_i hp; simp [hp]
  · rename_i hp; simp only [hp, forall_const]; omega

theorem State.Inv.frameLength_ge (h : s.Inv) : 82 ≤ s.cfg.frameLength := of_decide_eq_true h.cfgOk

theorem State.Inv.setPending (h : s.Inv) (ws : List EventWord) : (s.setPending ws).Inv :=
  ⟨h.cfgOk, h.cursor, h.canonical, h.inRange, h.written, h.marked, h.counter⟩

theorem State.Inv.clearOut (h : s.Inv) : s.clearOut.Inv :=
  ⟨h.cfgOk, h.cursor, h.canonical, h.inRange, h.written, h.marked, h.counter⟩

theorem State.Inv.mapSample (h : s.Inv) (f : SampleOut → SampleOut) : (s.mapSample f).Inv :=
  ⟨h.cfgOk, h.cursor, h.canonical, h.inRange, h.written, h.marked, h.counter⟩

theorem State.Inv.emit (h : s.Inv) : s.emit.Inv :=
  ⟨h.cfgOk, h.cursor, h.canonical, h.inRange, h.written, h.marked, h.counter⟩

theorem State.Inv.noteDrop (h : s.Inv) : s.noteDrop.Inv :=
  ⟨h.cfgOk, h.cursor, h.canonical, h.inRange, h.written, h.marked, satInc_lt h.counter⟩

/-- With the cursor at 0 nothing is claimed of the bytes of the buffer: the state is EMPTY. -/
theorem State.inv_of_empty (h0 : s.fillIndex = 0) (hcfg : s.cfg.wf = true)
    (hcanonical : s.buf.wf = true) (hrange : s.buf.below s.cfg.frameLength = true)
    (hcount : s.desyncCount < 2 ^ s.cfg.diagWidth) : s.Inv where
  cfgOk := hcfg
  cursor := by
    have hlen : 82 ≤ s.cfg.frameLength := of_decide_eq_true hcfg
    exact State.cursorOk_iff.2 ⟨by omega, fun _ => by omega⟩
  canonical := hcanonical
  inRange := hrange
  written i hi := by omega
  marked hpos := by omega
  counter := hcount

theorem State.Inv.setFill_zero (h : s.Inv) : (s.setFill 0).Inv :=
  State.inv_of_empty rfl h.cfgOk h.canonical h.inRange h.counter

theorem State.Inv.clearRegs (h : s.Inv) : s.clearRegs.Inv :=
  State.inv_of_empty rfl h.cfgOk h.canonical h.inRange (Nat.two_pow_pos _)

/-- A store whose cursor stays in the policy's range, of the marker at index 0. -/
theorem State.Inv.store {b : Byte} (h : s.Inv) (hlt : s.fillIndex < s.cfg.frameLength)
    (hB : s.cfg.policy = .B → s.fillIndex + 1 < s.cfg.frameLength)
    (hb : s.fillIndex = 0 → b = s.cfg.marker) : (s.store b).Inv where
  cfgOk := h.cfgOk
  cursor := State.cursorOk_iff.2 ⟨hlt, hB⟩
  canonical := Memory.wf_write h.canonical _ _
  inRange := Memory.below_write h.inRange hlt _
  written i hi := by
    rw [State.store_fillIndex] at hi
    rw [State.store_buf, Memory.lookup_write]
    split
    · rfl
    · exact h.written i (by omega)
  marked _ := by
    rw [State.store_buf, Memory.read_write, State.store_cfg]
    split
    · rename_i h0; exact hb h0.symm
    · exact h.marked (by omega)
  counter := h.counter

/-- A store in LAST, then the emission: EMPTY again, the buffer written below its capacity. -/
theorem State.Inv.store_emit_setFill_zero {b : Byte} (h : s.Inv)
    (hlt : s.fillIndex < s.cfg.frameLength) : ((s.store b).emit.setFill 0).Inv :=
  State.inv_of_empty rfl h.cfgOk (Memory.wf_write h.canonical _ _)
    (Memory.below_write h.inRange hlt _) h.counter

theorem FeedCase.inv {u : State} {b : Byte} (hcase : FeedCase s b u) (h : s.Inv) : u.Inv := by
  have hlen : 1 < s.cfg.frameLength := Nat.lt_of_lt_of_le (by decide) h.frameLength_ge
  cases hcase with
  | drop => exact h.clearOut.noteDrop
  | store hlt hb hB =>
    refine h.clearOut.store hlt (fun hp => ?_) hb
    rcases Nat.eq_zero_or_pos s.fillIndex with h0 | hpos
    · simpa [h0] using hlen
    · exact hB hp hpos
  | complete _ _ hlast => exact h.clearOut.store_emit_setFill_zero (Nat.lt_of_succ_le hlast.le)
  | retrigger _ _ _ hb =>
    exact h.clearOut.emit.setFill_zero.store (Nat.lt_of_succ_lt hlen) (fun _ => hlen) (fun _ => hb)

theorem EventCase.inv {u : State} {ev : Event} (hcase : EventCase s ev u) (h : s.Inv) : u.Inv := by
  cases hcase with
  | reset => exact h.clearOut.clearRegs
  | idle => exact h.clearOut
  | feed _ _ hfeed => exact hfeed.inv h

theorem stepOn_keeps_inv {w : EventWord} {t : State} (h : s.Inv) (ht : stepOn w s = .next t) :
    t.Inv := by
  obtain ⟨u, f, hcase, rfl⟩ := stepOn_cases ht
  exact (hcase.inv h).mapSample f

end

/-- Settles O30: every case of an event keeps the invariant, and taking the event off `pending` and the
decoder's outputs do not touch it. -/
theorem stepKeepsInvariant : Obligations.StepKeepsInvariant := by
  intro s t h ht
  cases hp : s.pending with
  | nil => exact stepOn_keeps_inv h (step_of_no_pending hp ▸ ht)
  | cons w ws => exact stepOn_keeps_inv (h.setPending ws) (step_of_pending hp ▸ ht)

end Sys2Proof.Machine
end

section
/-! The counter (10_state.md R14): what a step makes of it, and that nothing else depends on it. -/

namespace Sys2Proof.Machine

open Sys2Proof

/-- `FEED` counts its drop and nothing else. -/
theorem FeedCase.desyncCount_eq {s u : State} {b : Byte} (h : FeedCase s b u) :
    u.desyncCount =
      if u.out.dropped = true then satInc s.cfg.diagWidth s.desyncCount else s.desyncCount := by
  cases h with
  | drop => simp
  | store => simp
  | complete => simp
  | retrigger => simp

/-- `RESET` clears the counter, and every other event counts its drop. -/
theorem EventCase.desyncCount_eq {s u : State} {ev : Event} (h : EventCase s ev u) :
    u.desyncCount =
      if ev = .reset then 0
      else if u.out.dropped = true then satInc s.cfg.diagWidth s.desyncCount
      else s.desyncCount := by
  cases h with
  | reset => simp
  | idle => simp
  | feed _ _ hfeed => simpa using hfeed.desyncCount_eq

theorem stepOn_desyncCount_eq {w : EventWord} {s t : State} (h : stepOn w s = .next t) :
    t.desyncCount =
      if decodeEvent w = .reset then 0
      else if t.out.dropped = true then satInc s.cfg.diagWidth s.desyncCount
      else s.desyncCount := by
  obtain ⟨u, f, hcase, rfl⟩ := stepOn_cases h
  exact hcase.desyncCount_eq

/-- The counter stays within its width. -/
theorem stepOn_desyncCount_lt {w : EventWord} {s t : State} (h : stepOn w s = .next t)
    (hlt : s.desyncCount < 2 ^ s.cfg.diagWidth) : t.desyncCount < 2 ^ t.cfg.diagWidth := by
  rw [(stepOn_cfg_pending_eq h).1, stepOn_desyncCount_eq h]
  split
  · exact Nat.two_pow_pos _
  · split
    · exact satInc_lt hlt
    · exact hlt

/-- No condition of a case reads the counter, and no update but the counter's own does. -/
theorem FeedCase.withCount {s u : State} {b : Byte} (h : FeedCase s b u) (c : Nat) :
    ∃ c', FeedCase { s with desyncCount := c } b { u with desyncCount := c' } := by
  cases h with
  | drop hb hc => exact ⟨_, .drop hb hc⟩
  | store hlt hb hB => exact ⟨_, .store hlt hb hB⟩
  | complete hp hpos hlast => exact ⟨_, .complete hp hpos hlast⟩
  | retrigger hp hpos hfull hb => exact ⟨_, .retrigger hp hpos hfull hb⟩

theorem EventCase.withCount {s u : State} {ev : Event} (h : EventCase s ev u) (c : Nat) :
    ∃ c', EventCase { s with desyncCount := c } ev { u with desyncCount := c' } := by
  cases h with
  | reset => exact ⟨_, .reset⟩
  | idle => exact ⟨_, .idle⟩
  | feed b _ hfeed =>
    obtain ⟨c', hc'⟩ := hfeed.withCount c
    exact ⟨c', .feed b _ hc'⟩

theorem stepOn_withCount {w : EventWord} {s t : State} (h : stepOn w s = .next t) (c : Nat) :
    ∃ c', stepOn w { s with desyncCount := c } = .next { t with desyncCount := c' } := by
  obtain ⟨u, hcase, ht⟩ := stepOn_iff.1 h
  obtain ⟨f, rfl, hf⟩ := sampleOutputs_uniform ht
  obtain ⟨c', hc'⟩ := hcase.withCount c
  exact ⟨c', stepOn_iff.2 ⟨_, hc', hf _ rfl⟩⟩

/-- Settles O35: the saturating increment of a drop is the rule's case distinction, and the other two
clauses are facts about a step of their own. -/
theorem counterCountsDrops : Obligations.CounterCountsDrops := by
  refine ⟨fun w s t h => ?_, fun w s t h hlt => stepOn_desyncCount_lt h hlt,
    fun w s t c h => stepOn_withCount h c⟩
  rw [stepOn_desyncCount_eq h, satInc, ite_and]

end Sys2Proof.Machine
end

section
/-! The buffer as an array of `FRAME_LENGTH` bytes (10_state.md R10): who writes it, and that a step that
emits nothing does not read it. -/

namespace Sys2Proof.Machine

open Sys2Proof

/-- `FEED b` leaves the buffer or stores `b` at one index of the array. -/
theorem FeedCase.buf_eq {s u : State} {b : Byte} (h : FeedCase s b u) :
    u.buf = s.buf ∨
      s.storeIndex < s.cfg.frameLength ∧ u.buf = s.buf.write s.storeIndex b := by
  cases h with
  | drop => exact .inl rfl
  | store hlt =>
    have hi : s.storeIndex = s.fillIndex := if_neg (Nat.ne_of_lt hlt)
    exact .inr ⟨hi ▸ hlt, hi ▸ rfl⟩
  | complete _ _ hlast =>
    have hlt : s.fillIndex < s.cfg.frameLength := by omega
    have hi : s.storeIndex = s.fillIndex := if_neg (Nat.ne_of_lt hlt)
    exact .inr ⟨hi ▸ hlt, hi ▸ rfl⟩
  | retrigger _ hpos hfull =>
    have hi : s.storeIndex = 0 := if_pos hfull
    exact .inr ⟨hi ▸ hfull ▸ hpos, hi ▸ rfl⟩

/-- A byte of the array that an event changes is the fed byte, at the store index. -/
theorem EventCase.of_bufByte_ne {s u : State} {ev : Event} {i : Nat} (h : EventCase s ev u)
    (hne : u.bufByte i ≠ s.bufByte i) :
    i = s.storeIndex ∧ ∃ b, ev = .feed b ∧ u.bufByte i = some b := by
  cases h with
  | reset => exact absurd rfl hne
  | idle => exact absurd rfl hne
  | feed b _ hfeed =>
    have hcfg := hfeed.cfg_pending_eq.1
    rcases hfeed.buf_eq with hbuf | ⟨hlt, hbuf⟩
    · exact absurd (by simp only [State.bufByte, hcfg, hbuf]) hne
    · obtain rfl : i = s.storeIndex := by
        by_contra hi
        exact hne (by simp only [State.bufByte, hcfg, hbuf, Memory.read_write_of_ne _ _ hi])
      exact ⟨rfl, b, rfl, State.bufByte_eq_some.2 ⟨hcfg ▸ hlt, by simp [hbuf]⟩⟩

/-- The operations that store their byte (10_state.md R10). -/
def appendsOf (b : Byte) : List Instr :=
  [.bStart b, .bAppend b, .bComplete b, .aStart b, .aAppend b, .aRetrigger b]

/-- The operations that discard their byte (60_exceptions.md R141). -/
def dropsOf (b : Byte) : List Instr := [.bDrop b, .aDropEmpty b, .aDropFull b]

/-- `FEED` selects an operation that stores its byte or one that discards it (30_encoding.md R53, R54). -/
theorem select_feed_mem {cfg : Config} {cls : StateClass} {b : Byte} {op : Instr}
    (h : select cfg cls (.feed b) = some op) : op ∈ appendsOf b ∨ op ∈ dropsOf b := by
  cases hp : cfg.policy with
  | A =>
    simp only [select, hp, selectA] at h
    split at h
    · split at h <;> cases h <;> simp [appendsOf, dropsOf]
    · cases h; simp [appendsOf]
    · cases h; simp [appendsOf]
    · split at h <;> cases h <;> simp [appendsOf, dropsOf]
    · cases h
  | B =>
    simp only [select, hp, selectB] at h
    split at h
    · split at h <;> cases h <;> simp [appendsOf, dropsOf]
    · cases h; simp [appendsOf]
    · cases h; simp [appendsOf]
    · cases h
    · cases h

/-- An operation that discards its byte does nothing but note the drop. -/
theorem exec_drop_eq_next {s u : State} {b : Byte} {op : Instr} (hop : op ∈ dropsOf b)
    (h : exec op s = .next u) : u = s.clearOut.noteDrop := by
  simp only [dropsOf, List.mem_cons, List.not_mem_nil, or_false] at hop
  rcases hop with rfl | rfl | rfl <;>
    exact (Host.Outcome.next.inj (whenSelected_eq_next.1 h).2).symm

/-- A byte of the array that a step changes is the fed byte, stored by one of the six appends. -/
theorem stepOn_of_bufByte_ne {w : EventWord} {s t : State} {i : Nat} (h : stepOn w s = .next t)
    (hne : t.bufByte i ≠ s.bufByte i) :
    i = s.storeIndex ∧ ∃ b op, decodeEvent w = .feed b ∧ t.bufByte i = some b ∧
      select s.cfg s.stateClass (.feed b) = some op ∧ op ∈ appendsOf b := by
  obtain ⟨op, u, hop, hu, ht⟩ := stepOn_eq_next.1 h
  obtain ⟨f, rfl⟩ := sampleOutputs_eq_next ht
  obtain ⟨hi, b, hev, hb⟩ := (exec_selected_cases hop hu).of_bufByte_ne hne
  rw [hev] at hop
  refine ⟨hi, b, op, hev, hb, hop, (select_feed_mem hop).resolve_right fun hdrop => ?_⟩
  obtain rfl := exec_drop_eq_next hdrop hu
  exact hne rfl

/-- An event that emits no Frame goes the same way, but for `buf` itself, on any buffer. -/
theorem EventCase.withBuf {s u : State} {ev : Event} (h : EventCase s ev u)
    (hquiet : u.out.frame = none) (m : Memory) :
    ∃ m', EventCase { s with buf := m } ev { u with buf := m' } := by
  cases h with
  | reset => exact ⟨_, .reset⟩
  | idle => exact ⟨_, .idle⟩
  | feed b _ hfeed =>
    cases hfeed with
    | drop hb hc => exact ⟨_, .feed b _ (.drop hb hc)⟩
    | store hlt hb hB => exact ⟨_, .feed b _ (.store hlt hb hB)⟩
    | complete => cases hquiet
    | retrigger => cases hquiet

theorem stepOn_withBuf {w : EventWord} {s t : State} (h : stepOn w s = .next t)
    (hquiet : t.out.frame = none) (m : Memory) :
    ∃ m', stepOn w { s with buf := m } = .next { t with buf := m' } := by
  obtain ⟨u, hcase, ht⟩ := stepOn_iff.1 h
  obtain ⟨f, rfl, hf⟩ := sampleOutputs_uniform ht
  obtain ⟨m', hm'⟩ := hcase.withBuf hquiet m
  exact ⟨m', stepOn_iff.2 ⟨_, hm', hf _ rfl⟩⟩

/-- Settles O57: the size is that of the snapshot in every state, the writes are those of the appends, and
a step without a Frame does not read the buffer. -/
theorem bufferIsArrayOfFrameLengthBytes : Obligations.BufferIsArrayOfFrameLengthBytes := by
  refine ⟨fun s => ⟨s.snapshot_length, s.snapshot_getElem?, fun i => State.bufByte_isSome⟩,
    fun w s t h => ⟨fun i => ?_, fun i hne => stepOn_of_bufByte_ne h hne,
      fun hquiet m => stepOn_withBuf h hquiet m⟩⟩
  rw [Bool.eq_iff_iff, State.bufByte_isSome, State.bufByte_isSome, (stepOn_cfg_pending_eq h).1]

end Sys2Proof.Machine
end

section
/-! The write access of a step (20_memory.md R31): one byte, at the store index, then the cursor moves. -/

namespace Sys2Proof.Machine

open Sys2Proof

theorem State.storeIndex_of_lt {s : State} (h : s.fillIndex < s.cfg.frameLength) :
    s.storeIndex = s.fillIndex := if_neg (Nat.ne_of_lt h)

theorem State.storeIndex_of_full {s : State} (h : s.fillIndex = s.cfg.frameLength) :
    s.storeIndex = 0 := if_pos h

/-- Where `FEED` writes the buffer, the cursor ends one past the store index, or at 0 after the last. -/
theorem FeedCase.fillIndex_of_buf_ne {s u : State} {b : Byte} (h : FeedCase s b u)
    (hne : u.buf ≠ s.buf) :
    u.fillIndex = s.storeIndex + 1 ∨ s.storeIndex + 1 = s.cfg.frameLength ∧ u.fillIndex = 0 := by
  cases h with
  | drop => exact absurd rfl hne
  | store hlt => exact .inl (by rw [State.storeIndex_of_lt hlt]; rfl)
  | complete _ _ hlast =>
    rw [State.storeIndex_of_lt (Nat.lt_of_succ_le hlast.le)]
    exact .inr ⟨hlast, rfl⟩
  | retrigger _ _ hfull => exact .inl (by rw [State.storeIndex_of_full hfull]; rfl)

/-- A byte that an event changes is the fed byte, stored at the store index with the cursor moved on. -/
theorem EventCase.of_read_ne {s u : State} {ev : Event} {a : Nat} (h : EventCase s ev u)
    (hne : u.buf.read a ≠ s.buf.read a) :
    ∃ b, ev = .feed b ∧ a = s.storeIndex ∧ a < s.cfg.frameLength ∧ u.buf.read a = b ∧
      (u.fillIndex = a + 1 ∨ a + 1 = s.cfg.frameLength ∧ u.fillIndex = 0) := by
  have hbuf_ne : u.buf ≠ s.buf := fun hbuf => hne (by rw [hbuf])
  cases h with
  | reset => exact absurd rfl hne
  | idle => exact absurd rfl hne
  | feed b _ hfeed =>
    obtain ⟨hlt, hbuf⟩ := hfeed.buf_eq.resolve_left hbuf_ne
    obtain rfl : a = s.storeIndex := by
      by_contra ha
      exact hne (by rw [hbuf, Memory.read_write_of_ne _ _ ha])
    exact ⟨b, rfl, rfl, hlt, by rw [hbuf, Memory.read_write_same], hfeed.fillIndex_of_buf_ne hbuf_ne⟩

/-- Settles O34: the decoder writes neither the buffer nor the cursor, so the step stores what the
operation of its event stores. -/
theorem stepStoresOnlyAtCursor : Obligations.StepStoresOnlyAtCursor := by
  intro w s t a h hne
  obtain ⟨u, f, hcase, rfl⟩ := stepOn_cases h
  exact hcase.of_read_ne hne

end Sys2Proof.Machine
end

section
/-! A chunk that is stored whole (20_memory.md R34): every byte goes to the cursor in turn, and the front
of the buffer grows by the chunk, in stream order. -/

namespace Sys2Proof.Machine

open Sys2Proof

/-- The bytes stored one after another, one step each. -/
def State.storeAll : List Byte → State → State
  | [], s => s
  | b :: bs, s => State.storeAll bs (s.clearOut.store b)

@[simp] theorem State.storeAll_nil (s : State) : s.storeAll [] = s := rfl

@[simp] theorem State.storeAll_cons (b : Byte) (bs : List Byte) (s : State) :
    s.storeAll (b :: bs) = (s.clearOut.store b).storeAll bs := rfl

@[simp] theorem State.storeAll_fillIndex (bs : List Byte) (s : State) :
    (s.storeAll bs).fillIndex = s.fillIndex + bs.length := by
  induction bs generalizing s with
  | nil => rfl
  | cons b bs ih => simp [ih]; omega

@[simp] theorem Memory.readRange_zero (m : Memory) (start : Nat) : m.readRange start 0 = [] := rfl

/-- A store puts its byte at the end of the front and keeps the front. -/
theorem State.store_front (b : Byte) (s : State) :
    (s.store b).buf.readRange 0 (s.store b).fillIndex =
      s.buf.readRange 0 s.fillIndex ++ [b] := by
  rw [State.store_buf, State.store_fillIndex, Memory.readRange_succ, Nat.zero_add,
    Memory.read_write_same]
  congr 1
  exact Memory.readRange_congr fun k hk => Memory.read_write_of_ne _ _ (by omega)

/-- The front after a chunk is stored is the old front and then the chunk. -/
theorem State.storeAll_front (bs : List Byte) (s : State) :
    (s.storeAll bs).buf.readRange 0 (s.storeAll bs).fillIndex =
      s.buf.readRange 0 s.fillIndex ++ bs := by
  induction bs generalizing s with
  | nil => simp
  | cons b bs ih => rw [State.storeAll_cons, ih, State.store_front]; simp

/-- Where the store case of `FEED b` applies, the step is the store: nothing is emitted to decode. -/
theorem stepOn_feedWord_store {s : State} {b : Byte} (hlt : s.fillIndex < s.cfg.frameLength)
    (hb : s.fillIndex = 0 → b = s.cfg.marker)
    (hB : s.cfg.policy = .B → 0 < s.fillIndex → s.fillIndex + 1 < s.cfg.frameLength) :
    stepOn (feedWord b) s = .next (s.clearOut.store b) := by
  refine stepOn_iff.2 ⟨_, ?_, sampleOutputs_of_none rfl⟩
  rw [decodeEvent_feedWord]
  exact .feed b _ (.store hlt hb hB)

/-- A chunk that fits below the capacity (under Policy A also one that fills it), with the marker first
where it begins in EMPTY, is stored whole, and no step of it emits or drops. -/
theorem chunk_eq_storeAll {bs : List Byte} {s : State}
    (hfit : s.fillIndex + bs.length ≤ s.cfg.frameLength)
    (hB : s.cfg.policy = .B → s.fillIndex + bs.length < s.cfg.frameLength)
    (hmarker : s.fillIndex = 0 → bs[0]? = some s.cfg.marker) :
    chunk bs s = .next (s.storeAll bs, List.replicate bs.length Output.quiet) := by
  induction bs generalizing s with
  | nil => rfl
  | cons b bs ih =>
    rw [List.length_cons] at hfit hB
    have hstep : stepOn (feedWord b) s = .next (s.clearOut.store b) :=
      stepOn_feedWord_store (by omega) (fun h0 => Option.some.inj (hmarker h0))
        (fun hp _ => by have := hB hp; omega)
    have hrest : chunk bs (s.clearOut.store b) = .next _ :=
      ih (s := s.clearOut.store b) (by simp; omega) (fun hp => by have := hB hp; simp; omega)
        (fun h => absurd h (Nat.succ_ne_zero _))
    exact runEvents_cons_eq_next.2 ⟨_, _, hstep, hrest, rfl⟩

/-- Steps that put out nothing emit no Frame. -/
@[simp] theorem framesOf_replicate_quiet (n : Nat) :
    framesOf (List.replicate n Output.quiet) = [] := by
  simp [framesOf, List.filterMap_replicate]

/-- Settles O46: from EMPTY the chunk is stored whole, so the front of the buffer is the chunk. -/
theorem streamOrderIsIndexOrder : Obligations.StreamOrderIsIndexOrder := by
  intro s bs _ h0 hmarker hlt
  have hfill : (s.storeAll bs).fillIndex = bs.length := by simp [h0]
  have hfront : (s.storeAll bs).buf.readRange 0 bs.length = bs := by
    simpa [h0] using s.storeAll_front bs
  have hchunk := chunk_eq_storeAll (by omega) (fun _ => by omega) (fun _ => hmarker)
  refine ⟨_, _, hchunk, hfill, fun i hi => ?_, by simp, fun o ho => ?_⟩
  · simpa using (Memory.readRange_eq.1 hfront).2 i hi
  · rw [List.eq_of_mem_replicate ho, Output.quiet_dropped]

end Sys2Proof.Machine
end

section
/-! The input signals as an event word (30_encoding.md R50, R66): each signal is read back from its bits. -/

namespace Sys2Proof.Machine

open Sys2Proof

@[simp] theorem rstBit_inputWord (rst inValid : Bool) (data : Byte) :
    rstBit (inputWord rst inValid data) = rst :=
  BitVec.getLsbD_append.trans (by cases rst <;> cases inValid <;> rfl)

@[simp] theorem inValidBit_inputWord (rst inValid : Bool) (data : Byte) :
    inValidBit (inputWord rst inValid data) = inValid :=
  BitVec.getLsbD_append.trans (by cases rst <;> cases inValid <;> rfl)

@[simp] theorem inData_inputWord (rst inValid : Bool) (data : Byte) :
    inData (inputWord rst inValid data) = data :=
  BitVec.extractLsb'_append_eq_right

/-- Settles O25: decoding reads the three signals back and tests them in the rule's order. -/
theorem inputSignalsGiveEvent : Obligations.InputSignalsGiveEvent := by
  intro rst inValid data
  rw [decodeEvent, rstBit_inputWord, inValidBit_inputWord, inData_inputWord]

end Sys2Proof.Machine
end

section
/-! Operation selection (30_encoding.md R53, R54): the selected operation meets its row's conditions, and
an operation of the fed byte that meets them is the selected one. -/

namespace Sys2Proof.Machine

open Sys2Proof

/-- The byte of a `FEED` word is in it. -/
theorem feedWord_inj {a b : Byte} : feedWord a = feedWord b ↔ a = b :=
  ⟨fun h => by simpa using congrArg inData h, congrArg feedWord⟩

/-- The operations encoded as `FEED b` are those that store `b` and those that discard it. -/
theorem encode_eq_feedWord {i : Instr} {b : Byte} :
    encode i = .event (feedWord b) ↔ i ∈ appendsOf b ∨ i ∈ dropsOf b := by
  have hreset : (0x200#10 : EventWord) ≠ feedWord b := fun h => by
    simpa using congrArg decodeEvent h
  have hidle : (0x000#10 : EventWord) ≠ feedWord b := fun h => by
    simpa using congrArg decodeEvent h
  cases i <;> simp [encode, appendsOf, dropsOf, feedWord_inj, hreset, hidle]

/-- The policy, byte class and state class of a row of R53 and R54 hold where it is selected. -/
theorem select_wf_classOk {cfg : Config} {cls : StateClass} {ev : Event} {i : Instr}
    (h : select cfg cls ev = some i) : i.wf cfg = true ∧ i.classOk cls = true := by
  cases ev with
  | reset => cases h; exact ⟨rfl, rfl⟩
  | idle => cases h; exact ⟨rfl, rfl⟩
  | feed b =>
    cases hp : cfg.policy with
    | A =>
      simp only [select, hp, selectA] at h
      split at h
      · split at h <;> cases h <;> simp [Instr.wf, Instr.classOk, *]
      · cases h; simp [Instr.wf, Instr.classOk, hp]
      · cases h; simp [Instr.wf, Instr.classOk, hp]
      · split at h <;> cases h <;> simp [Instr.wf, Instr.classOk, *]
      · cases h
    | B =>
      simp only [select, hp, selectB] at h
      split at h
      · split at h <;> cases h <;> simp [Instr.wf, Instr.classOk, *]
      · cases h; simp [Instr.wf, Instr.classOk, hp]
      · cases h; simp [Instr.wf, Instr.classOk, hp]
      · cases h
      · cases h

/-- No two operations of one byte meet the conditions of their rows: the one that does is selected. -/
theorem select_of_wf_classOk {cfg : Config} {cls : StateClass} {b : Byte} {i : Instr}
    (hi : i ∈ appendsOf b ∨ i ∈ dropsOf b) (hwf : i.wf cfg = true) (hcls : i.classOk cls = true) :
    select cfg cls (.feed b) = some i := by
  simp only [appendsOf, dropsOf, List.mem_cons, List.not_mem_nil, or_false] at hi
  rcases hi with (rfl | rfl | rfl | rfl | rfl | rfl) | rfl | rfl | rfl <;>
    simp only [Instr.wf, Instr.classOk, Bool.and_eq_true, Bool.or_eq_true, decide_eq_true_eq]
      at hwf hcls
  -- `A.APPEND` is the one row of two classes, FILLING and its sub-case LAST (R54).
  pick_goal 5
  · rcases hcls with rfl | rfl <;> simp [select, selectA, hwf]
  all_goals simp [select, selectA, selectB, hwf, hcls]

/-- A byte selects an operation in every class but those of 93 U3. -/
theorem exists_select_feed {cfg : Config} {cls : StateClass} (b : Byte) (hover : cls ≠ .overrun)
    (hfull : cls = .full → cfg.policy = .A) : ∃ i, select cfg cls (.feed b) = some i := by
  cases cls with
  | empty =>
    cases hp : cfg.policy <;> by_cases hb : b = cfg.marker <;> simp [select, selectA, selectB, hp, hb]
  | filling => cases hp : cfg.policy <;> simp [select, selectA, selectB, hp]
  | last => cases hp : cfg.policy <;> simp [select, selectA, selectB, hp]
  | full => by_cases hb : b = cfg.marker <;> simp [select, selectA, hfull rfl, hb]
  | overrun => exact absurd rfl hover

/-- Settles O26: selection is sound and complete for the conditions of the rows, and total outside 93 U3. -/
theorem selectionIsExhaustiveAndExclusive : Obligations.SelectionIsExhaustiveAndExclusive := by
  refine fun cfg cls b => ⟨fun i => ⟨fun h => ?_, fun ⟨hi, hwf, hcls⟩ => ?_⟩, exists_select_feed b⟩
  · exact ⟨encode_eq_feedWord.2 (select_feed_mem h), select_wf_classOk h⟩
  · exact select_of_wf_classOk (encode_eq_feedWord.1 hi) hwf hcls

end Sys2Proof.Machine
end

section
/-! A `FEED` in a resting state (40_frame_assembler.md R70, 60_exceptions.md R140): one of its cases
applies, and the step is that case with the Sample outputs of an emitted Frame set. -/

namespace Sys2Proof.Machine

open Sys2Proof

/-- In a state that meets the invariant every byte falls under a case of `FEED`. -/
theorem State.Inv.exists_feedCase {s : State} (h : s.Inv) (b : Byte) : ∃ u, FeedCase s b u := by
  have hlen := h.frameLength_ge
  obtain ⟨hle, hltB⟩ := State.cursorOk_iff.1 h.cursor
  by_cases h0 : s.fillIndex = 0
  · by_cases hb : b = s.cfg.marker
    · exact ⟨_, .store (by omega) (fun _ => hb) (fun _ _ => by omega)⟩
    · exact ⟨_, .drop hb (.inl h0)⟩
  have hpos := Nat.pos_of_ne_zero h0
  cases hp : s.cfg.policy with
  | A =>
    by_cases hfull : s.fillIndex = s.cfg.frameLength
    · by_cases hb : b = s.cfg.marker
      · exact ⟨_, .retrigger hp hpos hfull hb⟩
      · exact ⟨_, .drop hb (.inr ⟨hp, hfull⟩)⟩
    · exact ⟨_, .store (by omega) (fun h => absurd h h0) (fun hB => by simp [hp] at hB)⟩
  | B =>
    have := hltB hp
    by_cases hlast : s.fillIndex + 1 = s.cfg.frameLength
    · exact ⟨_, .complete hp hpos hlast⟩
    · exact ⟨_, .store this (fun h => absurd h h0) (fun _ _ => by omega)⟩

/-- A Frame that `FEED` emits is a snapshot, so it has `FRAME_LENGTH` bytes. -/
theorem FeedCase.frame_length {s u : State} {b : Byte} {F : Frame} (h : FeedCase s b u)
    (hF : u.out.frame = some F) : F.length = s.cfg.frameLength := by
  cases h with
  | drop => cases hF
  | store => cases hF
  | complete => cases hF; exact State.snapshot_length _
  | retrigger => cases hF; exact State.snapshot_length _

/-- Where a case of `FEED` applies, the step answers it: the decoder adds the Sample outputs alone. -/
theorem FeedCase.stepOn {s u : State} {b : Byte} {w : EventWord} (h : FeedCase s b u)
    (hw : decodeEvent w = .feed b) (hlen : 82 ≤ s.cfg.frameLength) :
    ∃ f, stepOn w s = .next (u.mapSample f) := by
  obtain ⟨t, ht⟩ := sampleOutputs_isNext (u := u) fun F hF => hlen.trans_eq (h.frame_length hF).symm
  obtain ⟨f, rfl⟩ := sampleOutputs_eq_next ht
  exact ⟨f, stepOn_iff.2 ⟨u, hw ▸ .feed b u h, ht⟩⟩

/-- A step that takes a byte answers a case of `FEED`. -/
theorem stepOn_feedWord_cases {s t : State} {b : Byte} (h : stepOn (feedWord b) s = .next t) :
    ∃ u f, FeedCase s b u ∧ t = u.mapSample f := by
  obtain ⟨u, f, hcase, rfl⟩ := stepOn_cases h
  rw [decodeEvent_feedWord] at hcase
  cases hcase with
  | feed _ _ hfeed => exact ⟨u, f, hfeed, rfl⟩

end Sys2Proof.Machine
end

section
/-! Runs of events (70_reset_and_hazards.md R180): a run of two sequences, what every run keeps, and that
it does not depend on the outputs of the state it begins in. -/

namespace Sys2Proof.Machine

open Sys2Proof

/-- A run of two sequences is a run of the first and, from where that ends, a run of the second. -/
theorem runEvents_append_eq_next {ws ws' : List EventWord} {s t : State} {outs : List Output} :
    runEvents (ws ++ ws') s = .next (t, outs) ↔
      ∃ u os os', runEvents ws s = .next (u, os) ∧ runEvents ws' u = .next (t, os') ∧
        outs = os ++ os' := by
  induction ws generalizing s outs with
  | nil =>
    constructor
    · exact fun h => ⟨s, [], outs, rfl, h, rfl⟩
    · rintro ⟨u, os, os', hnil, h, rfl⟩
      cases hnil
      exact h
  | cons w ws ih =>
    rw [List.cons_append, runEvents_cons_eq_next]
    constructor
    · rintro ⟨v, _, hstep, hrest, rfl⟩
      obtain ⟨u, os, os', h1, h2, rfl⟩ := ih.1 hrest
      exact ⟨u, v.out :: os, os', runEvents_cons_eq_next.2 ⟨v, os, hstep, h1, rfl⟩, h2, rfl⟩
    · rintro ⟨u, _, os', h1, h2, rfl⟩
      obtain ⟨v, os, hstep, hrest, rfl⟩ := runEvents_cons_eq_next.1 h1
      exact ⟨v, os ++ os', hstep, ih.2 ⟨u, os, os', hrest, h2, rfl⟩, rfl⟩

theorem chunk_append_eq_next {bs bs' : List Byte} {s t : State} {outs : List Output} :
    chunk (bs ++ bs') s = .next (t, outs) ↔
      ∃ u os os', chunk bs s = .next (u, os) ∧ chunk bs' u = .next (t, os') ∧ outs = os ++ os' := by
  rw [chunk, chunkEvents, List.map_append]
  exact runEvents_append_eq_next

theorem chunk_cons_eq_next {b : Byte} {bs : List Byte} {s t : State} {outs : List Output} :
    chunk (b :: bs) s = .next (t, outs) ↔
      ∃ u os, stepOn (feedWord b) s = .next u ∧ chunk bs u = .next (t, os) ∧ outs = u.out :: os :=
  runEvents_cons_eq_next

/-- A run keeps the parameters and the invariant, and gives one output record for each event. -/
theorem runEvents_keeps {ws : List EventWord} {s t : State} {outs : List Output}
    (h : runEvents ws s = .next (t, outs)) :
    t.cfg = s.cfg ∧ (s.Inv → t.Inv) ∧ outs.length = ws.length := by
  induction ws generalizing s outs with
  | nil => cases h; exact ⟨rfl, id, rfl⟩
  | cons w ws ih =>
    obtain ⟨u, os, hstep, hrest, rfl⟩ := runEvents_cons_eq_next.1 h
    obtain ⟨hcfg, hinv, hlen⟩ := ih hrest
    exact ⟨hcfg.trans (stepOn_cfg_pending_eq hstep).1, fun hs => hinv (stepOn_keeps_inv hs hstep),
      congrArg Nat.succ hlen⟩

/-- From a state that meets the invariant every chunk runs to its end (60_exceptions.md R140). -/
theorem State.Inv.exists_chunk {s : State} (h : s.Inv) (bs : List Byte) :
    ∃ t outs, chunk bs s = .next (t, outs) := by
  induction bs generalizing s with
  | nil => exact ⟨s, [], rfl⟩
  | cons b bs ih =>
    obtain ⟨u, hcase⟩ := h.exists_feedCase b
    obtain ⟨f, hstep⟩ := hcase.stepOn (decodeEvent_feedWord b) h.frameLength_ge
    obtain ⟨t, outs, hrest⟩ := ih (stepOn_keeps_inv h hstep)
    exact ⟨t, _, chunk_cons_eq_next.2 ⟨_, outs, hstep, hrest, rfl⟩⟩

end Sys2Proof.Machine
end

section
/-! `IDLE` and chunking (40_frame_assembler.md R71, R89): a step reads the resting part of its state only,
and `IDLE` keeps that. -/

namespace Sys2Proof.Machine

open Sys2Proof

/-- Two states with the same resting part differ in their outputs alone. -/
theorem State.eq_of_resting_eq {s s' : State} (h : s'.resting = s.resting) :
    s' = { s with out := s'.out } :=
  State.ext_fields (congrArg State.cfg h :) (congrArg State.buf h :) (congrArg State.fillIndex h :)
    (congrArg State.desyncCount h :) (congrArg State.pending h :) rfl

/-- Every operation starts from cleared outputs (R70): no case depends on the outputs before it. -/
theorem EventCase.withOut {s u : State} {ev : Event} (h : EventCase s ev u) (o : Output) :
    EventCase { s with out := o } ev u := by
  cases h with
  | reset => exact .reset
  | idle => exact .idle
  | feed b _ hfeed =>
    refine .feed b _ ?_
    cases hfeed with
    | drop hb hc => exact .drop hb hc
    | store hlt hb hB => exact .store hlt hb hB
    | complete hp hpos hlast => exact .complete hp hpos hlast
    | retrigger hp hpos hfull hb => exact .retrigger hp hpos hfull hb

theorem stepOn_of_resting_eq {w : EventWord} {s s' t : State} (hrest : s'.resting = s.resting)
    (h : stepOn w s = .next t) : stepOn w s' = .next t := by
  obtain ⟨u, hcase, ht⟩ := stepOn_iff.1 h
  rw [State.eq_of_resting_eq hrest]
  exact stepOn_iff.2 ⟨u, hcase.withOut _, ht⟩

/-- A run puts out the same records from every state with the same resting part. -/
theorem runEvents_of_resting_eq {ws : List EventWord} {s s' t : State} {outs : List Output}
    (hrest : s'.resting = s.resting) (h : runEvents ws s = .next (t, outs)) :
    ∃ t', runEvents ws s' = .next (t', outs) ∧ t'.resting = t.resting := by
  cases ws with
  | nil => cases h; exact ⟨s', rfl, hrest⟩
  | cons w ws =>
    obtain ⟨u, os, hstep, hrun, rfl⟩ := runEvents_cons_eq_next.1 h
    exact ⟨t, runEvents_cons_eq_next.2 ⟨u, os, stepOn_of_resting_eq hrest hstep, hrun, rfl⟩, rfl⟩

theorem decodeEvent_eq_idle {w : EventWord} (hrst : w.getLsbD 9 = false)
    (hvalid : w.getLsbD 8 = false) : decodeEvent w = .idle := by
  rw [decodeEvent, rstBit, hrst, inValidBit, hvalid]
  rfl

/-- An `IDLE` step clears the outputs and does nothing else. -/
theorem stepOn_idle {w : EventWord} {s : State} (hw : decodeEvent w = .idle) :
    stepOn w s = .next s.clearOut :=
  stepOn_iff.2 ⟨s.clearOut, hw ▸ .idle, sampleOutputs_of_none rfl⟩

/-- Any number of `IDLE` steps puts out nothing and keeps the resting part of the state. -/
theorem runEvents_idles {ws : List EventWord} {s : State} (hws : ∀ w ∈ ws, decodeEvent w = .idle) :
    ∃ t, runEvents ws s = .next (t, List.replicate ws.length Output.quiet) ∧
      t.resting = s.resting := by
  induction ws generalizing s with
  | nil => exact ⟨s, rfl, rfl⟩
  | cons w ws ih =>
    obtain ⟨t, hrun, hrest⟩ := ih (s := s.clearOut) fun v hv => hws v (List.mem_cons_of_mem w hv)
    exact ⟨t, runEvents_cons_eq_next.2 ⟨_, _, stepOn_idle (hws w List.mem_cons_self), hrun, rfl⟩,
      hrest⟩

/-- Settles O4: such a word decodes to `IDLE`, whose step only clears the outputs. -/
theorem idleChangesNothing : Obligations.IdleChangesNothing := by
  refine ⟨fun s w cls hrst hvalid => ?_, fun s ws hws => ?_⟩
  · have hw := decodeEvent_eq_idle hrst hvalid
    exact ⟨by rw [hw]; rfl, s.clearOut, rfl, stepOn_idle hw, rfl, rfl, rfl⟩
  · obtain ⟨t, hrun, hrest⟩ := runEvents_idles (s := s)
      fun w hw => decodeEvent_eq_idle (hws w hw).1 (hws w hw).2
    refine ⟨t, _, hrun, List.length_replicate, fun o ho => ?_, hrest⟩
    rw [List.eq_of_mem_replicate ho]
    exact ⟨rfl, rfl⟩

@[simp] theorem framesOf_append (os os' : List Output) :
    framesOf (os ++ os') = framesOf os ++ framesOf os' := List.filterMap_append

theorem chunks_cons {idles : Nat} {bs : List Byte} {cs : List (Nat × List Byte)} {s u t : State}
    {outs more : List Output}
    (h : runEvents (List.replicate idles noEventWord ++ chunkEvents bs) s = .next (u, outs))
    (hmore : chunks cs u = .next (t, more)) :
    chunks ((idles, bs) :: cs) s = .next (t, outs ++ more) := by
  simp only [chunks, h, hmore]

/-- The bytes of the chunks as one chunk, run from a state with the same resting part, tell what the
chunks give. -/
theorem chunks_of_chunk {cs : List (Nat × List Byte)} {s s' t : State} {outs : List Output}
    (hrest : s'.resting = s.resting)
    (h : chunk (cs.flatMap fun c => c.2) s = .next (t, outs)) :
    ∃ t' outs', chunks cs s' = .next (t', outs') ∧ t'.resting = t.resting ∧
      framesOf outs' = framesOf outs := by
  induction cs generalizing s s' outs with
  | nil => cases h; exact ⟨s', [], rfl, hrest, rfl⟩
  | cons c cs ih =>
    obtain ⟨idles, bs⟩ := c
    obtain ⟨u, os, os', hfirst, hothers, rfl⟩ := chunk_append_eq_next.1 h
    obtain ⟨v, hidle, hv⟩ := runEvents_idles (ws := List.replicate idles noEventWord) (s := s')
      fun w hw => List.eq_of_mem_replicate hw ▸ decodeEvent_idle
    obtain ⟨u', hchunk, hu'⟩ := runEvents_of_resting_eq (hv.trans hrest) hfirst
    obtain ⟨t', more, hmore, ht', hframes⟩ := ih hu' hothers
    have hboth := runEvents_append_eq_next.2 ⟨v, _, os, hidle, hchunk, rfl⟩
    exact ⟨t', _, chunks_cons hboth hmore, ht', by simp [hframes]⟩

/-- Settles O44: the case of `chunks_of_chunk` where both begin in one state. -/
theorem chunkingIndependence : Obligations.ChunkingIndependence :=
  fun _ _ _ _ h => chunks_of_chunk rfl h

end Sys2Proof.Machine
end

section
/-! The bound on emissions (40_frame_assembler.md R83): each `FEED` moves the cursor by at most one, and an
emission takes `FRAME_LENGTH` off it. -/

namespace Sys2Proof.Machine

open Sys2Proof

@[simp] theorem framesOf_nil : framesOf [] = [] := rfl

@[simp] theorem framesOf_cons (o : Output) (os : List Output) :
    framesOf (o :: os) = o.frame.toList ++ framesOf os := by
  cases hF : o.frame <;> simp [framesOf, hF]

/-- The cursor as a potential: what `FEED` adds to it, less `FRAME_LENGTH` for an emission, is at most
one. -/
theorem FeedCase.emission_potential {s u : State} {b : Byte} (h : FeedCase s b u) :
    u.out.frame.toList.length * s.cfg.frameLength + u.fillIndex ≤ s.fillIndex + 1 := by
  cases h with
  | drop => simp
  | store => simp
  | complete _ _ hlast => simp [hlast]
  | retrigger _ _ hfull => simp [hfull]

/-- Under Policy A no `FEED` leads back to EMPTY. -/
theorem FeedCase.fillIndex_pos {s u : State} {b : Byte} (h : FeedCase s b u)
    (hp : s.cfg.policy = .A) (hpos : 0 < s.fillIndex) : 0 < u.fillIndex := by
  cases h with
  | drop => exact hpos
  | store => exact Nat.succ_pos _
  | complete hB => simp [hp] at hB
  | retrigger => exact Nat.succ_pos _

/-- The potential over a chunk. -/
theorem chunk_emission_potential {bs : List Byte} {s t : State} {outs : List Output}
    (h : chunk bs s = .next (t, outs)) :
    (framesOf outs).length * s.cfg.frameLength + t.fillIndex ≤ s.fillIndex + bs.length := by
  induction bs generalizing s outs with
  | nil => cases h; simp
  | cons b bs ih =>
    obtain ⟨v, os, hstep, hrest, rfl⟩ := chunk_cons_eq_next.1 h
    have hcfg := (stepOn_cfg_pending_eq hstep).1
    obtain ⟨u, f, hcase, rfl⟩ := stepOn_feedWord_cases hstep
    have hfirst := hcase.emission_potential
    have hothers := ih hrest
    rw [hcfg] at hothers
    simp only [State.mapSample_fillIndex] at hothers
    simp only [framesOf_cons, State.mapSample_out, List.length_append, List.length_cons,
      Nat.add_mul]
    omega

theorem chunk_fillIndex_pos {bs : List Byte} {s t : State} {outs : List Output}
    (h : chunk bs s = .next (t, outs)) (hp : s.cfg.policy = .A) (hpos : 0 < s.fillIndex) :
    0 < t.fillIndex := by
  induction bs generalizing s outs with
  | nil => cases h; exact hpos
  | cons b bs ih =>
    obtain ⟨v, os, hstep, hrest, rfl⟩ := chunk_cons_eq_next.1 h
    have hcfg := (stepOn_cfg_pending_eq hstep).1
    obtain ⟨u, f, hcase, rfl⟩ := stepOn_feedWord_cases hstep
    exact ih hrest (hcfg ▸ hp) (hcase.fillIndex_pos hp hpos)

/-- The cursor of a resting state gives less than one Frame of head start: under Policy A a full buffer
is followed by a cursor above 0. -/
theorem chunk_emission_lt {bs : List Byte} {s t : State} {outs : List Output} (hs : s.Inv)
    (h : chunk bs s = .next (t, outs)) :
    (framesOf outs).length * s.cfg.frameLength < s.cfg.frameLength + bs.length := by
  have hpot := chunk_emission_potential h
  have hlen := hs.frameLength_ge
  obtain ⟨hle, hltB⟩ := State.cursorOk_iff.1 hs.cursor
  cases hp : s.cfg.policy with
  | B =>
    have := hltB hp
    omega
  | A =>
    rcases Nat.eq_zero_or_pos s.fillIndex with h0 | hpos
    · omega
    · have := chunk_fillIndex_pos h hp hpos
      omega

/-- Settles O43: the potential bounds the Frames of a chunk, which runs to its end. -/
theorem chunkEmissionBound : Obligations.ChunkEmissionBound := by
  intro s bs hs
  have hlen := hs.frameLength_ge
  obtain ⟨t, outs, h⟩ := hs.exists_chunk bs
  have hlt := chunk_emission_lt hs h
  have hlength : outs.length = bs.length := by
    simpa [chunkEvents] using (runEvents_keeps h).2.2
  refine ⟨t, outs, h, hlength, ?_, fun hle => ?_⟩
  · rw [Nat.le_div_iff_mul_le (by omega)]
    omega
  · exact Nat.lt_succ_iff.1 (Nat.lt_of_mul_lt_mul_right (a := s.cfg.frameLength) (by omega))

end Sys2Proof.Machine
end

section
/-! The operations one by one (40_frame_assembler.md R72 to R80): what the event selects, and what the
selected operation changes and leaves unchanged. Both policies share their drop, start and append. -/

namespace Sys2Proof.Machine

open Sys2Proof

/-- The operation that `FEED b` selects does what the case of `FEED b` says. -/
theorem FeedCase.exec_selected {s u : State} {b : Byte} {i : Instr} (h : FeedCase s b u)
    (hi : select s.cfg s.stateClass (.feed b) = some i) : exec i s = .next u := by
  obtain ⟨j, hj, hu⟩ := h.answers
  cases hj.symm.trans hi
  exact hu

theorem State.stateClass_filling_or_last {s : State} (hpos : 0 < s.fillIndex)
    (hlt : s.fillIndex < s.cfg.frameLength) : s.stateClass = .filling ∨ s.stateClass = .last := by
  rcases Nat.lt_or_eq_of_le (Nat.succ_le_of_lt hlt) with h | h
  · exact .inl (State.stateClass_eq_filling.2 ⟨hpos, h⟩)
  · exact .inr (State.stateClass_eq_last.2 ⟨hpos, h⟩)

/-- A drop (R72, R76, R79) keeps buffer, cursor and class, and raises the counter unless it is
saturated. -/
theorem exec_drop {s : State} {b : Byte} {i : Instr}
    (hi : select s.cfg s.stateClass (.feed b) = some i) (hb : b ≠ s.cfg.marker)
    (hc : s.fillIndex = 0 ∨ s.cfg.policy = .A ∧ s.fillIndex = s.cfg.frameLength) :
    ∃ t, exec i s = .next t ∧ t.fillIndex = s.fillIndex ∧ t.stateClass = s.stateClass ∧
      (∀ a, t.buf.read a = s.buf.read a) ∧ t.snapshot = s.snapshot ∧
      t.out.frame = none ∧ t.out.dropped = true ∧
      t.desyncCount =
        (if s.desyncCount < 2 ^ s.cfg.diagWidth - 1 then s.desyncCount + 1 else s.desyncCount) ∧
      t.cfg = s.cfg ∧ t.pending = s.pending :=
  ⟨_, (FeedCase.drop hb hc).exec_selected hi, rfl, rfl, fun _ => rfl, rfl, rfl, rfl, rfl, rfl, rfl⟩

/-- A store (R73, R74, R77, R78) writes the byte at the cursor and moves the cursor past it. -/
theorem exec_store {s : State} {b : Byte} {i : Instr}
    (hi : select s.cfg s.stateClass (.feed b) = some i) (hlt : s.fillIndex < s.cfg.frameLength)
    (hb : s.fillIndex = 0 → b = s.cfg.marker)
    (hB : s.cfg.policy = .B → 0 < s.fillIndex → s.fillIndex + 1 < s.cfg.frameLength) :
    ∃ t, exec i s = .next t ∧ t.buf.read s.fillIndex = b ∧ t.fillIndex = s.fillIndex + 1 ∧
      t.out.frame = none ∧ t.out.dropped = false ∧
      (∀ a, a ≠ s.fillIndex → t.buf.read a = s.buf.read a) ∧
      t.desyncCount = s.desyncCount ∧ t.cfg = s.cfg ∧ t.pending = s.pending :=
  ⟨_, (FeedCase.store hlt hb hB).exec_selected hi, Memory.read_write_same _ _ _, rfl, rfl, rfl,
    fun _ ha => Memory.read_write_of_ne _ _ ha, rfl, rfl, rfl⟩

/-- A start (R73, R77): the store of the marker in EMPTY. -/
theorem exec_start {s : State} {i : Instr} (h0 : s.fillIndex = 0) (hlen : 82 ≤ s.cfg.frameLength)
    (hi : select s.cfg s.stateClass (.feed s.cfg.marker) = some i) :
    ∃ t, exec i s = .next t ∧ t.buf.read 0 = s.cfg.marker ∧ t.fillIndex = 1 ∧
      t.stateClass = .filling ∧ t.out.frame = none ∧ t.out.dropped = false ∧
      (∀ a, a ≠ 0 → t.buf.read a = s.buf.read a) ∧
      t.desyncCount = s.desyncCount ∧ t.cfg = s.cfg ∧ t.pending = s.pending := by
  obtain ⟨t, hexec, hread, hfill, hframe, hdrop, hothers, hcount, hcfg, hpend⟩ :=
    exec_store hi (by omega) (fun _ => rfl) (fun _ _ => by omega)
  rw [h0] at hread hfill hothers
  exact ⟨t, hexec, hread, hfill, State.stateClass_eq_filling.2 (by rw [hcfg, hfill]; omega), hframe,
    hdrop, hothers, hcount, hcfg, hpend⟩

/-- Settles O5: the marker in EMPTY selects `B.START`. -/
theorem bStartStoresMarker : Obligations.BStartStoresMarker := by
  intro s hp h0 hlen
  have hi : select s.cfg s.stateClass (.feed s.cfg.marker) = some (.bStart s.cfg.marker) := by
    simp [select, selectB, hp, State.stateClass_eq_empty.2 h0]
  exact ⟨hi, exec_start h0 hlen hi⟩

/-- Settles O9: the marker in EMPTY selects `A.START`. -/
theorem aStartStoresMarker : Obligations.AStartStoresMarker := by
  intro s hp h0 hlen
  have hi : select s.cfg s.stateClass (.feed s.cfg.marker) = some (.aStart s.cfg.marker) := by
    simp [select, selectA, hp, State.stateClass_eq_empty.2 h0]
  exact ⟨hi, exec_start h0 hlen hi⟩

/-- Settles O6: any other byte in EMPTY selects `B.DROP`. -/
theorem bDropDiscardsByte : Obligations.BDropDiscardsByte := by
  intro s b hp h0 hb
  have hc := State.stateClass_eq_empty.2 h0
  have hi : select s.cfg s.stateClass (.feed b) = some (.bDrop b) := by
    simp [select, selectB, hp, hc, hb]
  obtain ⟨t, hexec, hfill, hcls, hbuf, -, hrest⟩ := exec_drop hi hb (.inl h0)
  exact ⟨hi, t, hexec, hfill, hcls.trans hc, hbuf, hrest⟩

/-- Settles O10: any other byte in EMPTY selects `A.DROP_EMPTY`. -/
theorem aDropEmptyDiscardsByte : Obligations.ADropEmptyDiscardsByte := by
  intro s b hp h0 hb
  have hc := State.stateClass_eq_empty.2 h0
  have hi : select s.cfg s.stateClass (.feed b) = some (.aDropEmpty b) := by
    simp [select, selectA, hp, hc, hb]
  obtain ⟨t, hexec, hfill, hcls, hbuf, -, hrest⟩ := exec_drop hi hb (.inl h0)
  exact ⟨hi, t, hexec, hfill, hcls.trans hc, hbuf, hrest⟩

/-- Settles O11: any other byte in FULL selects `A.DROP_FULL`. -/
theorem aDropFullKeepsFrame : Obligations.ADropFullKeepsFrame := by
  intro s b hp hpos hfull hb
  have hc := State.stateClass_eq_full.2 ⟨hpos, hfull⟩
  have hi : select s.cfg s.stateClass (.feed b) = some (.aDropFull b) := by
    simp [select, selectA, hp, hc, hb]
  obtain ⟨t, hexec, hfill, hcls, hrest⟩ := exec_drop hi hb (.inr ⟨hp, hfull⟩)
  exact ⟨hi, t, hexec, hfill, hcls.trans hc, hrest⟩

/-- Settles O7: any byte in FILLING selects `B.APPEND`. -/
theorem bAppendStoresAtCursor : Obligations.BAppendStoresAtCursor := by
  intro s b hp hpos hlt
  have hc := State.stateClass_eq_filling.2 ⟨hpos, Nat.add_lt_of_lt_sub hlt⟩
  have hi : select s.cfg s.stateClass (.feed b) = some (.bAppend b) := by
    simp [select, selectB, hp, hc]
  obtain ⟨t, hexec, hread, hfill, hframe, hdrop, hothers, hcount, hcfg, hpend⟩ :=
    exec_store hi (by omega) (fun h0 => by omega) (fun _ _ => by omega)
  have hcls := t.stateClass_filling_or_last (by omega) (by rw [hcfg]; omega)
  exact ⟨hi, t, hexec, hread, hfill, hcls, hframe, hdrop, hothers, hcount, hcfg, hpend⟩

/-- Settles O12: any byte in FILLING or LAST selects `A.APPEND`, and the cursor after it tells the class. -/
theorem aAppendStoresAtCursor : Obligations.AAppendStoresAtCursor := by
  intro s b hp hpos hlt
  have hi : select s.cfg s.stateClass (.feed b) = some (.aAppend b) := by
    rcases State.stateClass_filling_or_last hpos hlt with hc | hc <;>
      simp [select, selectA, hp, hc]
  obtain ⟨t, hexec, hread, hfill, hframe, hdrop, hothers, hcount, hcfg, hpend⟩ :=
    exec_store hi hlt (fun h0 => by omega) (fun hB => by simp [hp] at hB)
  refine ⟨hi, t, hexec, hread, hfill, ?_, hframe, hdrop, hothers, hcount, hcfg, hpend⟩
  split
  · exact State.stateClass_eq_full.2 (by rw [hcfg]; omega)
  · exact t.stateClass_filling_or_last (by omega) (by rw [hcfg]; omega)

/-- The Frame that a completion emits: the old bytes below the cursor, then the fed byte. -/
theorem State.store_snapshot_getElem? (s : State) (b : Byte) {k : Nat}
    (hk : k < s.cfg.frameLength) :
    (s.store b).snapshot[k]? = some (if k = s.fillIndex then b else s.buf.read k) := by
  rw [State.snapshot_getElem?, State.bufByte, State.store_cfg, if_pos hk, State.store_buf,
    Memory.read_write]

/-- Settles O8: any byte in LAST selects `B.COMPLETE`, which emits the buffer with the byte stored. -/
theorem bCompleteEmitsFrame : Obligations.BCompleteEmitsFrame := by
  intro s b hp hpos hlast
  have hnext : s.fillIndex + 1 = s.cfg.frameLength := by omega
  have hi : select s.cfg s.stateClass (.feed b) = some (.bComplete b) := by
    simp [select, selectB, hp, State.stateClass_eq_last.2 ⟨hpos, hnext⟩]
  have hold : ∀ k, k < s.fillIndex → (s.store b).snapshot[k]? = some (s.buf.read k) := by
    intro k hk
    rw [State.store_snapshot_getElem? s b (by omega), if_neg (Nat.ne_of_lt hk)]
  have hnew : (s.store b).snapshot[s.cfg.frameLength - 1]? = some b := by
    rw [State.store_snapshot_getElem? s b (by omega), if_pos hlast.symm]
  refine ⟨hi, _, (s.store b).snapshot, (FeedCase.complete hp hpos hnext).exec_selected hi, rfl, rfl,
    State.snapshot_length _, hold, hnew, fun hmarker => hmarker ▸ hold 0 hpos, hnew, rfl,
    State.stateClass_eq_empty.2 rfl, ?_, fun a ha => ?_, rfl, rfl, rfl⟩
  · rw [← hlast]
    exact Memory.read_write_same _ _ _
  · exact Memory.read_write_of_ne _ _ (hlast ▸ ha)

/-- Settles O13: the marker in FULL selects `A.RETRIGGER`, which emits the buffer before the store. -/
theorem aRetriggerEmitsAndRestarts : Obligations.ARetriggerEmitsAndRestarts := by
  intro s hp hfull hlen
  have hpos : 0 < s.fillIndex := by omega
  have hlt : 0 + 1 + 1 < s.cfg.frameLength := by omega
  have hi : select s.cfg s.stateClass (.feed s.cfg.marker) = some (.aRetrigger s.cfg.marker) := by
    simp [select, selectA, hp, State.stateClass_eq_full.2 ⟨hpos, hfull⟩]
  have hread : ∀ k, k < s.cfg.frameLength → s.snapshot[k]? = some (s.buf.read k) :=
    (State.snapshot_eq.1 rfl).2
  refine ⟨hi, _, s.snapshot, (FeedCase.retrigger hp hpos hfull rfl).exec_selected hi, rfl, rfl,
    State.snapshot_length s, hread, rfl, State.stateClass_eq_filling.2 ⟨Nat.one_pos, hlt⟩,
    Memory.read_write_same _ _ _, fun a ha => Memory.read_write_of_ne _ _ ha,
    fun hmarker => ⟨hmarker ▸ hread 0 (by omega), fun a => ?_⟩, rfl, rfl, rfl⟩
  refine (Memory.read_write _ _ _ _).trans ?_
  split
  · rename_i h0; rw [h0]; exact hmarker.symm
  · rfl

end Sys2Proof.Machine
end

section
/-! Emissions and edges (40_frame_assembler.md R84, R85, R90): what an emission says of the step, what the
emitted Frame begins with, and where each event leads. -/

namespace Sys2Proof.Machine

open Sys2Proof

/-- An event that emits is a `FEED` in LAST under Policy B or of the marker in FULL under Policy A. -/
theorem EventCase.of_frame {s u : State} {ev : Event} {F : Frame} (h : EventCase s ev u)
    (hF : u.out.frame = some F) :
    u.out.dropped = false ∧ ∃ b, ev = .feed b ∧
      ((s.cfg.policy = .B ∧ s.stateClass = .last ∧ u.fillIndex = 0 ∧ (s.store b).snapshot = F) ∨
        (s.cfg.policy = .A ∧ s.stateClass = .full ∧ b = s.cfg.marker ∧ u.fillIndex = 1 ∧
          s.snapshot = F)) := by
  cases h with
  | reset => cases hF
  | idle => cases hF
  | feed b _ hfeed =>
    cases hfeed with
    | drop => cases hF
    | store => cases hF
    | complete hp hpos hlast =>
      exact ⟨rfl, b, rfl, .inl ⟨hp, State.stateClass_eq_last.2 ⟨hpos, hlast⟩, rfl,
        Option.some.inj hF⟩⟩
    | retrigger hp hpos hfull hb =>
      exact ⟨rfl, b, rfl, .inr ⟨hp, State.stateClass_eq_full.2 ⟨hpos, hfull⟩, hb, rfl,
        Option.some.inj hF⟩⟩

/-- Settles O37: the class and byte of an emission select `B.COMPLETE` or `A.RETRIGGER`. -/
theorem emissionOnlyAtCompletionOrRetrigger : Obligations.EmissionOnlyAtCompletionOrRetrigger := by
  intro w s t F h hF
  obtain ⟨u, f, hcase, rfl⟩ := stepOn_cases h
  obtain ⟨hdrop, b, hev, hop⟩ := hcase.of_frame hF
  refine ⟨hdrop, b, hev, ?_⟩
  rcases hop with ⟨hp, hc, hfill, -⟩ | ⟨hp, hc, hb, hfill, -⟩
  · exact .inl ⟨hp, hc, by simp [hev, select, selectB, hp, hc], hfill⟩
  · exact .inr ⟨hp, hc, by simp [hev, select, selectA, hp, hc, hb], hfill⟩

/-- Settles O38: the emitted snapshot has the marker of the invariant at index 0, which a completion does
not write. -/
theorem emittedFrameBeginsWithMarker : Obligations.EmittedFrameBeginsWithMarker := by
  intro w s t F hs h hF
  have hlen := hs.frameLength_ge
  obtain ⟨u, f, hcase, rfl⟩ := stepOn_cases h
  obtain ⟨-, b, -, ⟨-, hc, -, rfl⟩ | ⟨-, hc, -, -, rfl⟩⟩ := hcase.of_frame hF
  · have hpos := (State.stateClass_eq_last.1 hc).1
    refine ⟨?_, State.snapshot_length _⟩
    rw [State.store_snapshot_getElem? s b (by omega), if_neg (Nat.ne_of_lt hpos), hs.marked hpos]
  · have hpos := (State.stateClass_eq_full.1 hc).1
    exact ⟨hs.marked hpos ▸ (State.snapshot_eq.1 rfl).2 0 (by omega), State.snapshot_length _⟩

/-- A `RESET` step clears the outputs, the cursor and the counter (70_reset_and_hazards.md R170). -/
theorem stepOn_reset {w : EventWord} {s : State} (hw : decodeEvent w = .reset) :
    stepOn w s = .next s.clearOut.clearRegs :=
  stepOn_iff.2 ⟨s.clearOut.clearRegs, hw ▸ .reset, sampleOutputs_of_none rfl⟩

/-- Settles O40: each case of an event fixes the class before it, and with it the row of the table; the
cursor it leaves fixes the class after it. -/
theorem stateMachineEdges : Obligations.StateMachineEdges := by
  intro w s hs
  have hlen := hs.frameLength_ge
  cases hev : decodeEvent w with
  | reset => exact ⟨_, stepOn_reset hev, State.stateClass_eq_empty.2 rfl⟩
  | idle => exact ⟨_, stepOn_idle hev, rfl, rfl⟩
  | feed b =>
    obtain ⟨u, hcase⟩ := hs.exists_feedCase b
    obtain ⟨f, hstep⟩ := hcase.stepOn hev hlen
    refine ⟨_, hstep, ?_⟩
    cases hcase with
    | drop hb hc =>
      rcases hc with h0 | ⟨hp, hfull⟩
      · have hc := State.stateClass_eq_empty.2 h0
        simp only [hc, if_neg hb]
        exact ⟨hc, rfl⟩
      · have hc := State.stateClass_eq_full.2 ⟨by omega, hfull⟩
        simp only [hc, if_neg hb]
        exact ⟨hc, rfl⟩
    | store hlt hb hB =>
      rcases Nat.eq_zero_or_pos s.fillIndex with h0 | hpos
      · simp only [State.stateClass_eq_empty.2 h0, if_pos (hb h0)]
        have hlt' : s.fillIndex + 1 + 1 < s.cfg.frameLength := by omega
        exact ⟨State.stateClass_eq_filling.2 ⟨Nat.succ_pos _, hlt'⟩, congrArg Nat.succ h0, rfl⟩
      rcases Nat.lt_or_eq_of_le (Nat.succ_le_of_lt hlt) with hlt' | hlast
      · simp only [State.stateClass_eq_filling.2 ⟨hpos, hlt'⟩]
        exact ⟨State.stateClass_filling_or_last (Nat.succ_pos _) hlt', rfl, rfl⟩
      · have hp : s.cfg.policy = .A := by
          cases hp : s.cfg.policy with
          | A => rfl
          | B => exact absurd (hB hp hpos) (by omega)
        simp only [State.stateClass_eq_last.2 ⟨hpos, hlast⟩, hp]
        exact ⟨State.stateClass_eq_full.2 ⟨Nat.succ_pos _, hlast⟩, rfl⟩
    | complete hp hpos hlast =>
      simp only [State.stateClass_eq_last.2 ⟨hpos, hlast⟩, hp]
      exact ⟨State.stateClass_eq_empty.2 rfl, rfl⟩
    | retrigger hp hpos hfull hb =>
      simp only [State.stateClass_eq_full.2 ⟨hpos, hfull⟩, if_pos hb]
      have hlt : 0 + 1 + 1 < s.cfg.frameLength := by omega
      exact ⟨State.stateClass_eq_filling.2 ⟨Nat.one_pos, hlt⟩, rfl, rfl⟩

end Sys2Proof.Machine
end

section
/-! What a chunk does to the assembler, step by step (40_frame_assembler.md R83): the `frame` and `drop`
outputs of its steps, and the front of the buffer it leaves. -/

namespace Sys2Proof.Machine

open Sys2Proof

/-- The chunk `bs` takes `s` to `t` and its steps have these `frame` and `drop` outputs, in order. -/
def Feeds (bs : List Byte) (s t : State) (frames : List (Option Frame)) (drops : List Bool) :
    Prop :=
  ∃ outs, chunk bs s = .next (t, outs) ∧ outs.map (·.frame) = frames ∧ outs.map (·.dropped) = drops

/-- The bytes below the cursor. -/
def State.front (s : State) : Frame := s.buf.readRange 0 s.fillIndex

@[simp] theorem State.front_length (s : State) : s.front.length = s.fillIndex :=
  Memory.readRange_length _ _ _

theorem State.fillIndex_of_front_eq {s : State} {F : Frame} (h : s.front = F) :
    s.fillIndex = F.length := by
  rw [← h, State.front_length]

theorem State.snapshot_eq_front {s : State} (h : s.fillIndex = s.cfg.frameLength) :
    s.snapshot = s.front := by
  rw [State.snapshot, State.front, h]

theorem State.front_of_empty {s : State} (h : s.fillIndex = 0) : s.front = [] :=
  List.length_eq_zero_iff.1 (s.front_length.trans h)

theorem framesOf_eq_reduceOption (outs : List Output) :
    framesOf outs = (outs.map (·.frame)).reduceOption := by
  simp [framesOf, List.reduceOption, List.filterMap_map]

theorem feeds_nil (s : State) : Feeds [] s s [] [] := ⟨[], rfl, rfl, rfl⟩

theorem Feeds.append {bs bs' : List Byte} {s u t : State} {fs fs' : List (Option Frame)}
    {ds ds' : List Bool} (h : Feeds bs s u fs ds) (h' : Feeds bs' u t fs' ds') :
    Feeds (bs ++ bs') s t (fs ++ fs') (ds ++ ds') := by
  obtain ⟨os, hrun, rfl, rfl⟩ := h
  obtain ⟨os', hrun', rfl, rfl⟩ := h'
  exact ⟨os ++ os', chunk_append_eq_next.2 ⟨u, os, os', hrun, hrun', rfl⟩, List.map_append,
    List.map_append⟩

theorem feeds_singleton {b : Byte} {s t : State} (h : stepOn (feedWord b) s = .next t) :
    Feeds [b] s t [t.out.frame] [t.out.dropped] :=
  ⟨[t.out], chunk_cons_eq_next.2 ⟨t, [], h, rfl, rfl⟩, rfl, rfl⟩

theorem Feeds.cfg {bs : List Byte} {s t : State} {fs : List (Option Frame)} {ds : List Bool}
    (h : Feeds bs s t fs ds) : t.cfg = s.cfg := by
  obtain ⟨outs, hrun, -, -⟩ := h
  exact (runEvents_keeps hrun).1

theorem Feeds.inv {bs : List Byte} {s t : State} {fs : List (Option Frame)} {ds : List Bool}
    (h : Feeds bs s t fs ds) (hs : s.Inv) : t.Inv := by
  obtain ⟨outs, hrun, -, -⟩ := h
  exact (runEvents_keeps hrun).2.1 hs

/-- Over a chunk the counter rises, saturating, by the drops (10_state.md R14). -/
theorem Feeds.desyncCount_eq {bs : List Byte} {s t : State} {fs : List (Option Frame)}
    {ds : List Bool} (h : Feeds bs s t fs ds) :
    t.desyncCount = satIncs s.cfg.diagWidth (ds.count true) s.desyncCount := by
  obtain ⟨outs, hrun, -, rfl⟩ := h
  induction bs generalizing s outs with
  | nil => cases hrun; rfl
  | cons b bs ih =>
    obtain ⟨u, os, hstep, hrest, rfl⟩ := chunk_cons_eq_next.1 hrun
    have hcount := stepOn_desyncCount_eq hstep
    rw [decodeEvent_feedWord, if_neg (by simp)] at hcount
    rw [ih os hrest, (stepOn_cfg_pending_eq hstep).1, hcount, List.map_cons]
    cases hd : u.out.dropped with
    | false => simp
    | true => simp [satIncs]

/-- A chunk that is stored whole goes to the end of the front. -/
theorem feeds_store {bs : List Byte} {s : State}
    (hfit : s.fillIndex + bs.length ≤ s.cfg.frameLength)
    (hB : s.cfg.policy = .B → s.fillIndex + bs.length < s.cfg.frameLength)
    (hmarker : s.fillIndex = 0 → bs[0]? = some s.cfg.marker) :
    ∃ t, Feeds bs s t (List.replicate bs.length none) (List.replicate bs.length false) ∧
      t.front = s.front ++ bs :=
  ⟨s.storeAll bs, ⟨_, chunk_eq_storeAll hfit hB hmarker, List.map_replicate, List.map_replicate⟩,
    s.storeAll_front bs⟩

/-- A byte in LAST under Policy B emits the front with that byte (R75). -/
theorem feeds_complete {s : State} {b : Byte} (hlen : 82 ≤ s.cfg.frameLength)
    (hp : s.cfg.policy = .B) (hlast : s.fillIndex + 1 = s.cfg.frameLength) :
    ∃ t, Feeds [b] s t [some (s.front ++ [b])] [false] ∧ t.fillIndex = 0 := by
  obtain ⟨f, hstep⟩ := (FeedCase.complete (b := b) hp (by omega) hlast).stepOn
    (decodeEvent_feedWord b) hlen
  have hsnap : (s.store b).snapshot = s.front ++ [b] :=
    (State.snapshot_eq_front hlast).trans (s.store_front b)
  have hrun : Feeds [b] s _ [some (s.store b).snapshot] [false] := feeds_singleton hstep
  exact ⟨_, hsnap ▸ hrun, rfl⟩

/-- The rest of a Frame, up to `FRAME_LENGTH` bytes in all, with the marker first where the state is EMPTY:
Policy A holds it, Policy B emits it in the step of its last byte. -/
theorem feeds_fill {bs : List Byte} {s : State} (hs : s.Inv) (hlt : s.fillIndex < s.cfg.frameLength)
    (hlen : bs.length = s.cfg.frameLength - s.fillIndex)
    (hmarker : s.fillIndex = 0 → bs[0]? = some s.cfg.marker) :
    ∃ t, (s.cfg.policy = .A ∧ t.fillIndex = s.cfg.frameLength ∧ t.snapshot = s.front ++ bs ∧
        Feeds bs s t (List.replicate bs.length none) (List.replicate bs.length false)) ∨
      (s.cfg.policy = .B ∧ t.fillIndex = 0 ∧
        Feeds bs s t (List.replicate (bs.length - 1) none ++ [some (s.front ++ bs)])
          (List.replicate bs.length false)) := by
  have hframe := hs.frameLength_ge
  cases hp : s.cfg.policy with
  | A =>
    obtain ⟨t, hrun, hfront⟩ := feeds_store (bs := bs) (by omega) (by simp [hp]) hmarker
    have hfull : t.fillIndex = s.cfg.frameLength := by
      rw [State.fillIndex_of_front_eq hfront, List.length_append, State.front_length]
      omega
    exact ⟨t, .inl ⟨rfl, hfull, (State.snapshot_eq_front (hrun.cfg ▸ hfull)).trans hfront, hrun⟩⟩
  | B =>
    obtain ⟨init, b, rfl⟩ := List.eq_nil_or_concat' bs |>.resolve_left
      (List.ne_nil_of_length_pos (by omega))
    rw [List.length_append, List.length_singleton] at hlen
    obtain ⟨u, hrun, hfront⟩ := feeds_store (bs := init) (s := s) (by omega) (fun _ => by omega)
      fun h0 => by rw [← hmarker h0, List.getElem?_append_left (by omega)]
    have hu : u.fillIndex + 1 = u.cfg.frameLength := by
      rw [State.fillIndex_of_front_eq hfront, hrun.cfg, List.length_append, State.front_length]
      omega
    obtain ⟨t, hlast, h0⟩ := feeds_complete (b := b) (hrun.cfg ▸ hframe) (hrun.cfg ▸ hp) hu
    refine ⟨t, .inr ⟨rfl, h0, ?_⟩⟩
    simpa [hfront, List.replicate_succ'] using hrun.append hlast

/-- Settles O49: the chunk is the rest of the Frame that the front begins. -/
theorem boundedReturn : Obligations.BoundedReturn := by
  rintro s bs _ hs hpos hlt rfl hlen
  obtain ⟨t, ⟨hp, hfull, hsnap, outs, hrun, hframes, -⟩ | ⟨hp, h0, outs, hrun, hframes, -⟩⟩ :=
    feeds_fill hs hlt hlen (fun h0 => absurd h0 (Nat.ne_of_gt hpos))
  · simp only [hp]
    exact ⟨t, outs, hrun, hfull, hsnap, hframes⟩
  · simp only [hp]
    exact ⟨t, outs, hrun, h0, hframes⟩

end Sys2Proof.Machine
end

section
/-! Aligned streams (40_frame_assembler.md R91, R92): between Frames the assembler is EMPTY, or FULL with
the last Frame held; a gap keeps it so, and a Frame leads from one such state to the next. -/

namespace Sys2Proof.Machine

open Sys2Proof

/-- The state is ready for the first byte of a Frame: EMPTY, or under Policy A FULL, holding a Frame. -/
def Aligned (s : State) (held : Option Frame) : Prop :=
  s.fillIndex = 0 ∧ held = none ∨
    s.cfg.policy = .A ∧ s.fillIndex = s.cfg.frameLength ∧ held = some s.snapshot

theorem Aligned.of_policyB {s : State} {held : Option Frame} (h : Aligned s held)
    (hp : s.cfg.policy = .B) : s.fillIndex = 0 ∧ held = none :=
  h.resolve_right fun hA => by simp [hp] at hA

theorem Aligned.of_pos {s : State} {held : Option Frame} (h : Aligned s held)
    (hpos : 0 < s.fillIndex) : s.fillIndex = s.cfg.frameLength ∧ held = some s.snapshot :=
  (h.resolve_left fun h0 => Nat.ne_of_gt hpos h0.1).2

/-- The bytes of a gap are dropped, and nothing else happens. -/
theorem feeds_gap {g : List Byte} {s : State} {held : Option Frame} (hg : Gap s.cfg g)
    (h : Aligned s held) :
    ∃ t, Feeds g s t (List.replicate g.length none) (List.replicate g.length true) ∧
      Aligned t held := by
  induction g generalizing s with
  | nil => exact ⟨s, feeds_nil s, h⟩
  | cons b g ih =>
    have hcase : FeedCase s b s.clearOut.noteDrop :=
      .drop (hg b List.mem_cons_self) (h.imp And.left fun ⟨hp, hfull, _⟩ => ⟨hp, hfull⟩)
    have hstep : stepOn (feedWord b) s = .next s.clearOut.noteDrop :=
      stepOn_iff.2 ⟨_, decodeEvent_feedWord b ▸ .feed b _ hcase, sampleOutputs_of_none rfl⟩
    obtain ⟨t, hrun, ht⟩ := ih (s := s.clearOut.noteDrop)
      (fun c hc => hg c (List.mem_cons_of_mem b hc)) h
    exact ⟨t, (feeds_singleton hstep).append hrun, ht⟩

/-- The marker begins a Frame, and the held one is emitted in this step (R77, R80, R73). -/
theorem feeds_start {s : State} {held : Option Frame} (hs : s.Inv) (h : Aligned s held) :
    ∃ t, Feeds [s.cfg.marker] s t [held] [false] ∧ t.front = [s.cfg.marker] := by
  have hlen := hs.frameLength_ge
  rcases h with ⟨h0, rfl⟩ | ⟨hp, hfull, rfl⟩
  · obtain ⟨t, hrun, hfront⟩ := feeds_store (bs := [s.cfg.marker]) (s := s)
      (by rw [h0, List.length_singleton]; omega) (fun _ => by rw [h0, List.length_singleton]; omega)
      (fun _ => rfl)
    exact ⟨t, hrun, by rw [hfront, State.front_of_empty h0, List.nil_append]⟩
  · obtain ⟨f, hstep⟩ := (FeedCase.retrigger hp (by omega) hfull rfl).stepOn
      (decodeEvent_feedWord _) hlen
    exact ⟨_, feeds_singleton hstep, (s.clearOut.emit.setFill 0).store_front s.cfg.marker⟩

/-- A list that begins with the marker is the marker and its tail. -/
theorem eq_marker_cons_tail {cfg : Config} {bs : List Byte} (h : bs[0]? = some cfg.marker) :
    bs = cfg.marker :: bs.tail := by
  cases bs with
  | nil => cases h
  | cons b bs => rw [Option.some.inj h]; rfl

/-- A Frame under Policy A: the held one is emitted in the step of its first byte, then it is held. -/
theorem feeds_frame_of_policyA {T : Frame} {s : State} {held : Option Frame} (hs : s.Inv)
    (hp : s.cfg.policy = .A) (h : Aligned s held) (hT : Framed s.cfg T) :
    ∃ t, Feeds T s t (held :: List.replicate (T.length - 1) none) (List.replicate T.length false) ∧
      Aligned t (some T) := by
  obtain ⟨hlen, hfirst⟩ := hT
  have hge := hs.frameLength_ge
  have hcons := eq_marker_cons_tail hfirst
  obtain ⟨u, hstart, hfront⟩ := feeds_start hs h
  have hcursor : u.fillIndex = 1 := State.fillIndex_of_front_eq hfront
  have hcfg := hstart.cfg
  obtain ⟨t, ⟨-, hfull, hsnap, hrun⟩ | ⟨hB, -⟩⟩ := feeds_fill (bs := T.tail) (hstart.inv hs)
    (by rw [hcfg]; omega) (by rw [hcfg, List.length_tail]; omega) (fun h0 => by omega)
  · refine ⟨t, ?_, .inr ⟨?_, ?_, ?_⟩⟩
    · have hall := hstart.append hrun
      rw [List.singleton_append, ← hcons, List.length_tail, List.singleton_append,
        List.singleton_append, ← List.replicate_succ] at hall
      rwa [Nat.sub_add_cancel (by omega)] at hall
    · rw [hrun.cfg, hcfg, hp]
    · rw [hfull, hrun.cfg]
    · rw [hsnap, hfront, List.singleton_append, ← hcons]
  · simp [hcfg, hp] at hB

/-- A Frame under Policy B from EMPTY: it is emitted in the step of its last byte. -/
theorem feeds_frame_of_policyB {T : Frame} {s : State} (hs : s.Inv) (hp : s.cfg.policy = .B)
    (h0 : s.fillIndex = 0) (hT : Framed s.cfg T) :
    ∃ t, Feeds T s t (List.replicate (T.length - 1) none ++ [some T])
        (List.replicate T.length false) ∧ t.fillIndex = 0 := by
  obtain ⟨hlen, hfirst⟩ := hT
  have hge := hs.frameLength_ge
  obtain ⟨t, ⟨hA, -⟩ | ⟨-, ht, hrun⟩⟩ :=
    feeds_fill (bs := T) hs (by omega) (by omega) (fun _ => hfirst)
  · simp [hp] at hA
  · rw [State.front_of_empty h0, List.nil_append] at hrun
    exact ⟨t, hrun, ht⟩

/-- Every element of the stream is a Frame that begins with the marker, with a marker-free gap. -/
def StreamOk (cfg : Config) (ts : List (Frame × List Byte)) : Prop :=
  ∀ p ∈ ts, Framed cfg p.1 ∧ Gap cfg p.2

theorem stream_cons (p : Frame × List Byte) (ts : List (Frame × List Byte)) :
    stream (p :: ts) = p.1 ++ p.2 ++ stream ts := List.flatMap_cons

theorem gapDrops_cons (p : Frame × List Byte) (ts : List (Frame × List Byte)) :
    gapDrops (p :: ts) =
      List.replicate p.1.length false ++ List.replicate p.2.length true ++ gapDrops ts :=
  List.flatMap_cons

theorem promptFrames_cons (p : Frame × List Byte) (ts : List (Frame × List Byte)) :
    promptFrames (p :: ts) = List.replicate (p.1.length - 1) none ++ [some p.1] ++
      List.replicate p.2.length none ++ promptFrames ts := by
  simp [promptFrames]

theorem heldFrames_cons (held : Option Frame) (p : Frame × List Byte)
    (ts : List (Frame × List Byte)) :
    heldFrames held (p :: ts) = held :: List.replicate (p.1.length - 1) none ++
      List.replicate p.2.length none ++ heldFrames (some p.1) ts := by
  simp only [heldFrames, List.cons_append, List.replicate_append_replicate]

/-- The drops of a stream are its gap bytes. -/
theorem count_gapDrops (ts : List (Frame × List Byte)) :
    (gapDrops ts).count true = gapBytes ts := by
  induction ts with
  | nil => rfl
  | cons p ts ih => simp [gapDrops_cons, ih, gapBytes, List.count_replicate]

/-- Each Frame is put out once, in order, under Policy B. -/
theorem reduceOption_promptFrames (ts : List (Frame × List Byte)) :
    (promptFrames ts).reduceOption = ts.map (·.1) := by
  induction ts with
  | nil => rfl
  | cons p ts ih => simp [promptFrames_cons, ih, List.reduceOption_append]

/-- Under Policy A all Frames of the queue, the held one first, are put out but the last. -/
theorem reduceOption_heldFrames (held : Option Frame) (ts : List (Frame × List Byte)) :
    (heldFrames held ts).reduceOption = (held.toList ++ ts.map (·.1)).dropLast := by
  induction ts generalizing held with
  | nil => cases held <;> rfl
  | cons p ts ih =>
    rw [heldFrames_cons, List.map_cons, List.dropLast_append_of_ne_nil (List.cons_ne_nil _ _)]
    cases held <;> simp [ih, List.reduceOption_append]

/-- An aligned stream under Policy B (R91). -/
theorem feeds_stream_of_policyB {ts : List (Frame × List Byte)} {s : State} (hs : s.Inv)
    (hp : s.cfg.policy = .B) (h0 : s.fillIndex = 0) (hts : StreamOk s.cfg ts) :
    ∃ t, Feeds (stream ts) s t (promptFrames ts) (gapDrops ts) ∧ t.fillIndex = 0 := by
  induction ts generalizing s with
  | nil => exact ⟨s, feeds_nil s, h0⟩
  | cons p ts ih =>
    obtain ⟨hframe, hgap⟩ := hts p List.mem_cons_self
    obtain ⟨u, hrun, hu⟩ := feeds_frame_of_policyB hs hp h0 hframe
    obtain ⟨v, hrun', hv⟩ := feeds_gap (hrun.cfg ▸ hgap) (.inl ⟨hu, rfl⟩)
    have hboth := hrun.append hrun'
    obtain ⟨t, hrest, ht⟩ := ih (hboth.inv hs) (hboth.cfg ▸ hp)
      (hv.of_policyB (hboth.cfg ▸ hp)).1 (hboth.cfg ▸ fun q hq => hts q (List.mem_cons_of_mem p hq))
    rw [stream_cons, promptFrames_cons, gapDrops_cons]
    exact ⟨t, hboth.append hrest, ht⟩

/-- An aligned stream under Policy A (R92). -/
theorem feeds_stream_of_policyA {ts : List (Frame × List Byte)} {s : State} {held : Option Frame}
    (hs : s.Inv) (hp : s.cfg.policy = .A) (h : Aligned s held) (hts : StreamOk s.cfg ts) :
    ∃ t, Feeds (stream ts) s t (heldFrames held ts) (gapDrops ts) ∧
      Aligned t (held.toList ++ ts.map (·.1)).getLast? := by
  induction ts generalizing s held with
  | nil => exact ⟨s, feeds_nil s, by cases held <;> exact h⟩
  | cons p ts ih =>
    obtain ⟨hframe, hgap⟩ := hts p List.mem_cons_self
    obtain ⟨u, hrun, hu⟩ := feeds_frame_of_policyA hs hp h hframe
    obtain ⟨v, hrun', hv⟩ := feeds_gap (hrun.cfg ▸ hgap) hu
    have hboth := hrun.append hrun'
    obtain ⟨t, hrest, ht⟩ := ih (hboth.inv hs) (hboth.cfg ▸ hp) hv
      (hboth.cfg ▸ fun q hq => hts q (List.mem_cons_of_mem p hq))
    rw [stream_cons, heldFrames_cons, gapDrops_cons, List.map_cons,
      List.getLast?_append_of_ne_nil _ (List.cons_ne_nil _ _)]
    exact ⟨t, hboth.append hrest, ht⟩

/-- Settles O47: the frames and drops are those of `feeds_stream_of_policyB`, the counter counts the
drops. -/
theorem alignedStreamPolicyB : Obligations.AlignedStreamPolicyB := by
  intro s ts hs hp h0 hts
  obtain ⟨t, hrun, ht⟩ := feeds_stream_of_policyB hs hp h0 hts
  have hcount := hrun.desyncCount_eq
  rw [count_gapDrops] at hcount
  obtain ⟨outs, hchunk, hframes, hdrops⟩ := hrun
  exact ⟨t, outs, hchunk, ht,
    by rw [framesOf_eq_reduceOption, hframes, reduceOption_promptFrames], hframes, hdrops, hcount⟩

/-- Settles O48: the queue of the held Frame and the stream's is put out but for its last. -/
theorem alignedStreamPolicyA : Obligations.AlignedStreamPolicyA := by
  intro s ts held hs hp hstart hts hne
  have hmap : ts.map (·.1) ≠ [] := by simpa using hne
  obtain ⟨t, hrun, ht⟩ := feeds_stream_of_policyA hs hp
    (hstart.imp_right fun ⟨hfull, hheld⟩ => ⟨hp, hfull, hheld⟩) hts
  have hcount := hrun.desyncCount_eq
  rw [count_gapDrops] at hcount
  rw [List.getLast?_append_of_ne_nil _ hmap] at ht
  obtain ⟨-, hfull, hlast⟩ := ht.resolve_left fun h => hmap (List.getLast?_eq_none_iff.1 h.2)
  have hcfg := hrun.cfg
  obtain ⟨outs, hchunk, hframes, hdrops⟩ := hrun
  refine ⟨t, outs, hchunk, hcfg ▸ hfull, hlast.symm, ?_, hframes, hdrops, hcount⟩
  rw [framesOf_eq_reduceOption, hframes, reduceOption_heldFrames,
    List.dropLast_append_of_ne_nil hmap]

end Sys2Proof.Machine
end

section
/-! Loss and recovery of synchronisation (40_frame_assembler.md R88, R95, R96), for both policies at once:
under Policy A the Frames put out and the one held at the end are those that Policy B puts out. -/

namespace Sys2Proof.Machine

open Sys2Proof

/-- The chunk `bs` takes `s` to `t` and emits the Frames `Fs`, in order. -/
def Emits (bs : List Byte) (s t : State) (Fs : List Frame) : Prop :=
  ∃ outs, chunk bs s = .next (t, outs) ∧ framesOf outs = Fs

theorem Feeds.emits {bs : List Byte} {s t : State} {fs : List (Option Frame)} {ds : List Bool}
    (h : Feeds bs s t fs ds) : Emits bs s t fs.reduceOption := by
  obtain ⟨outs, hrun, rfl, -⟩ := h
  exact ⟨outs, hrun, framesOf_eq_reduceOption outs⟩

theorem Emits.append {bs bs' : List Byte} {s u t : State} {Fs Fs' : List Frame}
    (h : Emits bs s u Fs) (h' : Emits bs' u t Fs') : Emits (bs ++ bs') s t (Fs ++ Fs') := by
  obtain ⟨os, hrun, rfl⟩ := h
  obtain ⟨os', hrun', rfl⟩ := h'
  exact ⟨os ++ os', chunk_append_eq_next.2 ⟨u, os, os', hrun, hrun', rfl⟩, framesOf_append os os'⟩

theorem Emits.cfg {bs : List Byte} {s t : State} {Fs : List Frame} (h : Emits bs s t Fs) :
    t.cfg = s.cfg := by
  obtain ⟨outs, hrun, -⟩ := h
  exact (runEvents_keeps hrun).1

theorem Emits.inv {bs : List Byte} {s t : State} {Fs : List Frame} (h : Emits bs s t Fs)
    (hs : s.Inv) : t.Inv := by
  obtain ⟨outs, hrun, -⟩ := h
  exact (runEvents_keeps hrun).2.1 hs

theorem emits_gap {g : List Byte} {s : State} {held : Option Frame} (hg : Gap s.cfg g)
    (h : Aligned s held) : ∃ t, Emits g s t [] ∧ Aligned t held := by
  obtain ⟨t, hrun, ht⟩ := feeds_gap hg h
  exact ⟨t, by simpa using hrun.emits, ht⟩

/-- The beginning of a Frame emits the held one and is stored. -/
theorem emits_begin {bs : List Byte} {s : State} {held : Option Frame} (hs : s.Inv)
    (h : Aligned s held) (hfirst : bs[0]? = some s.cfg.marker)
    (hlt : bs.length < s.cfg.frameLength) :
    ∃ t, Emits bs s t held.toList ∧ t.front = bs := by
  have hcons := eq_marker_cons_tail hfirst
  have hlength := congrArg List.length hcons
  rw [List.length_cons] at hlength
  obtain ⟨u, hstart, hfront⟩ := feeds_start hs h
  have hcursor : u.fillIndex = 1 := State.fillIndex_of_front_eq hfront
  have hcfg := hstart.cfg
  obtain ⟨t, hrun, ht⟩ := feeds_store (bs := bs.tail) (s := u) (by rw [hcfg]; omega)
    (fun _ => by rw [hcfg]; omega) (fun h0 => by omega)
  have hall := hstart.emits.append hrun.emits
  rw [List.singleton_append, ← hcons] at hall
  refine ⟨t, ?_, by rw [ht, hfront, List.singleton_append, ← hcons]⟩
  simpa [List.reduceOption_singleton] using hall

/-- The rest of a Frame after the front: it is emitted, or under Policy A held. -/
theorem emits_fill {bs : List Byte} {s : State} (hs : s.Inv) (hpos : 0 < s.fillIndex)
    (hlt : s.fillIndex < s.cfg.frameLength) (hlen : bs.length = s.cfg.frameLength - s.fillIndex) :
    ∃ t Fs held, Emits bs s t Fs ∧ Aligned t held ∧ Fs ++ held.toList = [s.front ++ bs] := by
  obtain ⟨t, ⟨hp, hfull, hsnap, hrun⟩ | ⟨-, h0, hrun⟩⟩ :=
    feeds_fill hs hlt hlen (fun h0 => absurd h0 (Nat.ne_of_gt hpos))
  · exact ⟨t, _, some t.snapshot, hrun.emits,
      .inr ⟨hrun.cfg ▸ hp, hrun.cfg ▸ hfull, rfl⟩, by simp [hsnap]⟩
  · exact ⟨t, _, none, hrun.emits, .inl ⟨h0, rfl⟩, by simp [List.reduceOption_append]⟩

theorem dropLast_append_getLast?_toList {α : Type} (l : List α) :
    l.dropLast ++ l.getLast?.toList = l := by
  rcases l.eq_nil_or_concat' with rfl | ⟨init, a, rfl⟩
  · rfl
  · simp

/-- An aligned stream emits its Frames after the held one; under Policy A the last is held. -/
theorem emits_stream {ts : List (Frame × List Byte)} {s : State} {held : Option Frame} (hs : s.Inv)
    (h : Aligned s held) (hts : StreamOk s.cfg ts) :
    ∃ t Fs held', Emits (stream ts) s t Fs ∧ Aligned t held' ∧
      Fs ++ held'.toList = held.toList ++ ts.map (·.1) := by
  cases hp : s.cfg.policy with
  | A =>
    obtain ⟨t, hrun, ht⟩ := feeds_stream_of_policyA hs hp h hts
    refine ⟨t, _, _, hrun.emits, ht, ?_⟩
    rw [reduceOption_heldFrames, dropLast_append_getLast?_toList]
  | B =>
    obtain ⟨h0, rfl⟩ := h.of_policyB hp
    obtain ⟨t, hrun, ht⟩ := feeds_stream_of_policyB hs hp h0 hts
    exact ⟨t, _, none, hrun.emits, .inl ⟨ht, rfl⟩, by simp [reduceOption_promptFrames]⟩

/-- A marker-free payload has no marker in its rest beyond any index above 0. -/
theorem PayloadClean.gap_drop {cfg : Config} {T : Frame} (h : PayloadClean cfg T) {k : Nat}
    (hk : 0 < k) : Gap cfg (T.drop k) := by
  intro b hb
  rw [← Nat.add_sub_cancel' hk, ← List.drop_drop] at hb
  exact h b (List.mem_of_mem_drop hb)

/-- Recovery (R88): the front is completed by the head of `T` to one false Frame, the rest of `T` is a gap,
and the stream after it is aligned. -/
theorem emits_recovery {s : State} {T : Frame} {g : List Byte} {ts : List (Frame × List Byte)}
    (hs : s.Inv) (hpos : 0 < s.fillIndex) (hlt : s.fillIndex < s.cfg.frameLength)
    (hts : ∀ p ∈ (T, g) :: ts, Framed s.cfg p.1 ∧ Gap s.cfg p.2 ∧ PayloadClean s.cfg p.1) :
    ∃ t Fs held, Emits (stream ((T, g) :: ts)) s t Fs ∧ Aligned t held ∧
      Fs ++ held.toList =
        (s.front ++ T.take (s.cfg.frameLength - s.fillIndex)) :: ts.map (·.1) := by
  obtain ⟨hT, hg, hclean⟩ := hts (T, g) List.mem_cons_self
  have hk : 0 < s.cfg.frameLength - s.fillIndex := Nat.sub_pos_of_lt hlt
  obtain ⟨u, Fs, held, hfill, hu, hFs⟩ := emits_fill
    (bs := T.take (s.cfg.frameLength - s.fillIndex)) hs hpos hlt
    (by rw [List.length_take, hT.1]; omega)
  have hgap : Gap u.cfg (T.drop (s.cfg.frameLength - s.fillIndex) ++ g) := by
    rw [hfill.cfg]
    exact fun b hb => (List.mem_append.1 hb).elim (hclean.gap_drop hk b) (hg b)
  obtain ⟨v, hdrop, hv⟩ := emits_gap hgap hu
  have hboth := hfill.append hdrop
  obtain ⟨t, Fs', held', hrun, ht, hFs'⟩ := emits_stream (ts := ts) (hboth.inv hs) hv
    (hboth.cfg ▸ fun p hp => have ⟨hframed, hgap, _⟩ := hts p (List.mem_cons_of_mem _ hp)
      ⟨hframed, hgap⟩)
  have hall := hboth.append hrun
  rw [← List.append_assoc, List.take_append_drop, List.append_nil, ← stream_cons (T, g) ts] at hall
  exact ⟨t, _, held', hall, ht, by
    rw [List.append_assoc, hFs', ← List.append_assoc, hFs, List.singleton_append]⟩

/-- Settles O50: the recovery ends EMPTY, with nothing held. -/
theorem recoveryPolicyB : Obligations.RecoveryPolicyB := by
  rintro s T g ts _ hs hp hpos rfl hts
  obtain ⟨t, _, held, hrun, ht, hFs⟩ :=
    emits_recovery hs hpos ((State.cursorOk_iff.1 hs.cursor).2 hp) hts
  obtain ⟨h0, rfl⟩ := ht.of_policyB (hrun.cfg ▸ hp)
  obtain ⟨outs, hchunk, rfl⟩ := hrun
  exact ⟨t, outs, hchunk, h0, (List.append_nil _).symm.trans hFs⟩

/-- Settles O51: the recovery never leads back to EMPTY, so it ends FULL, with the last Frame held. -/
theorem recoveryPolicyA : Obligations.RecoveryPolicyA := by
  rintro s T g ts _ hs hp hpos hlt rfl hts
  obtain ⟨t, _, held, hrun, ht, hFs⟩ := emits_recovery hs hpos hlt hts
  have hcfg := hrun.cfg
  obtain ⟨outs, hchunk, rfl⟩ := hrun
  obtain ⟨hfull, rfl⟩ := ht.of_pos (chunk_fillIndex_pos hchunk hp hpos)
  exact ⟨t, outs, hchunk, hcfg ▸ hfull, hFs⟩

/-! ## The false lock -/

/-- A Frame cut at a marker and put together the other way round begins with that marker. -/
theorem framed_rotate {cfg : Config} {K : Frame} {q : Nat} (hK : Framed cfg K)
    (hq : q < cfg.frameLength) (hmarker : K[q]? = some cfg.marker) :
    Framed cfg (K.drop q ++ K.take q) := by
  obtain ⟨hlen, -⟩ := hK
  refine ⟨by rw [List.length_append, List.length_drop, List.length_take]; omega, ?_⟩
  rw [List.getElem?_append_left (by rw [List.length_drop]; omega), List.getElem?_drop]
  exact hmarker

/-- The tail of one copy and the head of the next, over and over: the copies as the false lock cuts
them. -/
theorem drop_append_copies (K : Frame) (q n : Nat) :
    K.drop q ++ (List.replicate n K).flatten =
      stream (List.replicate n (K.drop q ++ K.take q, [])) ++ K.drop q := by
  induction n with
  | zero => simp [stream]
  | succ n ih =>
    rw [List.replicate_succ, List.replicate_succ, stream_cons, List.append_assoc, ← ih]
    simp only [List.flatten_cons, List.append_nil, List.append_assoc]
    rw [← List.append_assoc (K.take q), List.take_append_drop]

/-- Settles O52: a gap up to offset `q`, an aligned stream of the rotated Frame, and a last beginning. -/
theorem falseLockNeverEnds : Obligations.FalseLockNeverEnds := by
  intro s K p q n held hs hK hp hpq hq hmarker hclean hstart
  have hlen := hK.1
  have hgap : Gap s.cfg ((K.drop p).take (q - p)) := by
    intro b hb hbm
    obtain ⟨i, hi⟩ := List.mem_iff_getElem?.1 hb
    rw [List.getElem?_take, Option.ite_none_right_eq_some, List.getElem?_drop] at hi
    obtain ⟨hlt, hi⟩ := hi
    exact hclean (p + i) (by omega) (by omega) (hbm ▸ hi)
  obtain ⟨u, hdrop, hu⟩ := emits_gap hgap hstart
  obtain ⟨v, Fs, held', hstream, hv, hFs⟩ := emits_stream
    (ts := List.replicate n (K.drop q ++ K.take q, [])) (hdrop.inv hs) hu fun c hc => by
      rw [List.eq_of_mem_replicate hc, hdrop.cfg]
      exact ⟨framed_rotate hK hq hmarker, fun b hb => absurd hb List.not_mem_nil⟩
  have hboth := hdrop.append hstream
  have hcfg := hboth.cfg
  obtain ⟨t, hbegin, hfront⟩ := emits_begin (bs := K.drop q) (hboth.inv hs) hv
    (by rw [List.getElem?_drop, hcfg]; exact hmarker) (by rw [List.length_drop, hcfg]; omega)
  obtain ⟨outs, hrun, hframes⟩ := hboth.append hbegin
  refine ⟨t, outs, ?_, ?_, ?_⟩
  · have hcut : K.drop p = (K.drop p).take (q - p) ++ K.drop q := by
      rw [← Nat.add_sub_cancel' hpq, ← List.drop_drop, Nat.add_sub_cancel_left,
        List.take_append_drop]
    rw [hcut, List.append_assoc, drop_append_copies, ← List.append_assoc]
    exact hrun
  · rw [State.fillIndex_of_front_eq hfront, List.length_drop, hlen]
  · rw [hframes, List.nil_append, hFs, List.map_replicate]

/-! ## One Frame -/

/-- An aligned Frame under Policy A emits the held one and is held. -/
theorem emits_frame_of_policyA {T : Frame} {s : State} {held : Option Frame} (hs : s.Inv)
    (hp : s.cfg.policy = .A) (h : Aligned s held) (hT : Framed s.cfg T) :
    ∃ t, Emits T s t held.toList ∧ t.snapshot = T := by
  obtain ⟨t, hrun, ht⟩ := feeds_frame_of_policyA hs hp h hT
  obtain ⟨-, -, hsnap⟩ := ht.resolve_left fun hempty => Option.some_ne_none _ hempty.2
  exact ⟨t, by cases held <;> simpa using hrun.emits, (Option.some.inj hsnap).symm⟩

/-- The bytes of a Frame into a partial one, under Policy B: it is completed, and what is left is too short
for a second. -/
theorem emits_frame_of_filling {s : State} {T : Frame} (hs : s.Inv) (hp : s.cfg.policy = .B)
    (hpos : 0 < s.fillIndex) (hT : T.length = s.cfg.frameLength) : ∃ t F, Emits T s t [F] := by
  have hlt := (State.cursorOk_iff.1 hs.cursor).2 hp
  obtain ⟨u, Fs, held, hfill, hu, hFs⟩ := emits_fill
    (bs := T.take (s.cfg.frameLength - s.fillIndex)) hs hpos hlt
    (by rw [List.length_take, hT]; omega)
  obtain ⟨h0, rfl⟩ := hu.of_policyB (hfill.cfg ▸ hp)
  obtain ⟨t, outs, hrest⟩ := (hfill.inv hs).exists_chunk (T.drop (s.cfg.frameLength - s.fillIndex))
  have hnone : framesOf outs = [] := by
    have hpot := chunk_emission_potential hrest
    rw [hfill.cfg, h0, List.length_drop, hT] at hpot
    refine List.length_eq_zero_iff.1 (Nat.lt_one_iff.1 ?_)
    exact Nat.lt_of_mul_lt_mul_right (a := s.cfg.frameLength) (by omega)
  have hall := hfill.append ⟨outs, hrest, hnone⟩
  rw [List.take_append_drop, List.append_nil] at hall
  rw [Option.toList_none, List.append_nil] at hFs
  exact ⟨t, _, hFs ▸ hall⟩

/-- Settles O53: an aligned Frame goes in whole; under Policy B it completes a partial one. -/
theorem oneFrameFromOneValidFrame : Obligations.OneFrameFromOneValidFrame := by
  intro s T hs hT
  have hlen := hs.frameLength_ge
  cases hp : s.cfg.policy with
  | A =>
    by_cases h0 : s.fillIndex = 0
    · obtain ⟨t, ⟨outs, hrun, hframes⟩, hsnap⟩ :=
        emits_frame_of_policyA hs hp (.inl ⟨h0, rfl⟩) hT
      exact ⟨t, outs, hrun, fun _ => ⟨hframes, hsnap⟩, fun hfull => by omega⟩
    · by_cases hfull : s.fillIndex = s.cfg.frameLength
      · obtain ⟨t, ⟨outs, hrun, hframes⟩, hsnap⟩ :=
          emits_frame_of_policyA hs hp (.inr ⟨hp, hfull, rfl⟩) hT
        exact ⟨t, outs, hrun, fun h => absurd h h0, fun _ => ⟨hframes, hsnap⟩⟩
      · obtain ⟨t, outs, hrun⟩ := hs.exists_chunk T
        exact ⟨t, outs, hrun, fun h => absurd h h0, fun h => absurd h hfull⟩
  | B =>
    rcases Nat.eq_zero_or_pos s.fillIndex with h0 | hpos
    · obtain ⟨t, hrun, ht⟩ := feeds_frame_of_policyB hs hp h0 hT
      obtain ⟨outs, hchunk, hframes⟩ := hrun.emits
      exact ⟨t, outs, hchunk, T, by simpa [List.reduceOption_append] using hframes,
        fun _ => ⟨rfl, ht⟩⟩
    · obtain ⟨t, F, outs, hchunk, hframes⟩ := emits_frame_of_filling hs hp hpos hT.1
      exact ⟨t, outs, hchunk, F, hframes, fun h => absurd h (Nat.ne_of_gt hpos)⟩

end Sys2Proof.Machine
end

section
/-! The decoder's arithmetic (41_telemetry_decoder.md R111, R112): `field16` of a byte pair, and `tdiv`
by its size and its sign. -/

namespace Sys2Proof.Machine

open Sys2Proof

/-! ## The byte pair -/

theorem field16_eq_some {F : Frame} {off : Nat} {v : Int} :
    field16 F off = some v ↔
      ∃ lo hi, F[off]? = some lo ∧ F[off + 1]? = some hi ∧ v = (hi ++ lo).toInt := by
  unfold field16
  rw [Option.map_eq_some_iff]
  constructor
  · rintro ⟨raw, hraw, rfl⟩
    obtain ⟨lo, hi, hlo, hhi, rfl⟩ := frameWord_eq_some.1 hraw
    exact ⟨lo, hi, hlo, hhi, rfl⟩
  · rintro ⟨lo, hi, hlo, hhi, rfl⟩
    exact ⟨hi ++ lo, frameWord_eq_some.2 ⟨lo, hi, hlo, hhi, rfl⟩, rfl⟩

theorem field16_isSome {F : Frame} {off : Nat} (h : off + 1 < F.length) :
    ∃ v, field16 F off = some v := by
  obtain ⟨raw, hraw⟩ := frameWord_isSome h
  exact ⟨sext16 raw, Option.map_eq_some_iff.2 ⟨raw, hraw, rfl⟩⟩

/-- A field reads its own two bytes and nothing else. -/
theorem field16_congr {F G : Frame} {off : Nat} (hlo : F[off]? = G[off]?)
    (hhi : F[off + 1]? = G[off + 1]?) : field16 F off = field16 G off := by
  unfold field16 frameWord
  rw [hlo, hhi]

/-- The sign of a byte pair is the sign of its high byte. -/
theorem toInt_bytePair (hi lo : Byte) : (hi ++ lo).toInt = hi.toInt * 256 + (lo.toNat : Int) := by
  rw [BitVec.toInt_append, if_neg (by decide), mul_comm]
  rfl

/-- The two bytes of an integer's 16-bit output, high before low, are that output. -/
theorem bytePair_eq_narrow16 (v : Int) :
    BitVec.ofNat 8 ((v % 65536).toNat / 256) ++ BitVec.ofNat 8 ((v % 65536).toNat % 256)
      = narrow16 v := by
  apply BitVec.eq_of_toNat_eq
  rw [BitVec.toNat_append, ← Nat.shiftLeft_add_eq_or_of_lt (BitVec.isLt _), Nat.shiftLeft_eq]
  simp only [BitVec.toNat_ofNat, narrow16, BitVec.toNat_ofInt]
  omega

/-- Settles O20: a field is the signed reading of its byte pair, whose sign is the high byte's. -/
theorem field16IsSignedLittleEndian : Obligations.Field16IsSignedLittleEndian := by
  intro F off hlen
  obtain ⟨v, hv⟩ := field16_isSome hlen
  obtain ⟨lo, hi, hlo, hhi, hval⟩ := field16_eq_some.1 hv
  exact ⟨lo, hi, v, hlo, hhi, hv, hval.trans (toInt_bytePair hi lo), hval, field16_range hv⟩

/-! ## Division -/

theorem natAbs_tdiv (a d : Int) : (tdiv a d).natAbs = a.natAbs / d.natAbs := Int.natAbs_tdiv a d

theorem tdiv_eq_sign_mul (a : Int) {d : Int} (hd : 0 < d) :
    tdiv a d = a.sign * ((a.natAbs / d.natAbs : Nat) : Int) := by
  have hsign : (tdiv a d).sign = if a.natAbs < d.natAbs then 0 else a.sign * d.sign :=
    Int.sign_tdiv a d
  rw [← Int.sign_mul_natAbs (tdiv a d), hsign, natAbs_tdiv]
  split
  · rename_i hlt
    simp [Nat.div_eq_of_lt hlt]
  · rw [Int.sign_eq_one_of_pos hd, mul_one]

/-- The quotient whose remainder is smaller than the divisor and has the dividend's sign is `tdiv`'s. -/
theorem eq_tdiv_of_remainder {a d q r : Int} (hd : d ≠ 0) (heq : a = q * d + r)
    (hr : r.natAbs < d.natAbs) (hpos : 0 ≤ a → 0 ≤ r) (hneg : a ≤ 0 → r ≤ 0) : q = tdiv a d := by
  have hsum : r + d * q = a := by rw [heq, mul_comm, add_comm]
  rcases le_total 0 a with ha | ha
  · exact ((Int.tdiv_tmod_unique ha hd).2 ⟨hsum, hpos ha, by omega⟩).1.symm
  · exact ((Int.tdiv_tmod_unique' ha hd).2 ⟨hsum, by omega, hneg ha⟩).1.symm

/-- Scaling back: an exact multiple is divided without loss. -/
theorem tdiv_mul_self {d : Int} (hd : d ≠ 0) (a : Int) : tdiv (d * a) d = a :=
  Int.mul_tdiv_cancel_left a hd

/-- Settles O21: the quotient by its sign and its size, and its uniqueness. -/
theorem divisionTruncatesTowardZero : Obligations.DivisionTruncatesTowardZero := by
  intro a d _ _ hd
  have hpos : 0 < d := by omega
  exact ⟨tdiv_eq_sign_mul a hpos, Int.natAbs_tdiv_le_natAbs a d,
    fun q r => eq_tdiv_of_remainder hpos.ne'⟩

/-- The quotient of a 16-bit value is bounded by that of the largest size, so its output reads back. -/
theorem tdiv_fits {a d bound : Int} (ha : -32768 ≤ a ∧ a ≤ 32767)
    (hbound : ((32768 / d.natAbs : Nat) : Int) ≤ bound) (hfits : bound ≤ 32767) :
    -bound ≤ tdiv a d ∧ tdiv a d ≤ bound ∧ (narrow16 (tdiv a d)).toInt = tdiv a d := by
  have hsize : (tdiv a d).natAbs ≤ 32768 / d.natAbs :=
    (natAbs_tdiv a d).trans_le (Nat.div_le_div_right (by omega))
  exact ⟨by omega, by omega, narrow16_toInt (by omega) (by omega)⟩

theorem tdiv_magDivisor_fits {a : Int} (ha : -32768 ≤ a ∧ a ≤ 32767) :
    -10922 ≤ tdiv a magDivisor ∧ tdiv a magDivisor ≤ 10922 ∧
      (narrow16 (tdiv a magDivisor)).toInt = tdiv a magDivisor :=
  tdiv_fits ha (by decide) (by decide)

theorem tdiv_angleDivisor_fits {a : Int} (ha : -32768 ≤ a ∧ a ≤ 32767) :
    -3276 ≤ tdiv a angleDivisor ∧ tdiv a angleDivisor ≤ 3276 ∧
      (narrow16 (tdiv a angleDivisor)).toInt = tdiv a angleDivisor :=
  tdiv_fits ha (by decide) (by decide)

/-- Rounding toward zero: the quotient is 0 on both sides of zero alike, below the divisor's size. -/
theorem tdiv_eq_zero_iff {a d : Int} (hd : 0 < d) : tdiv a d = 0 ↔ -d < a ∧ a < d := by
  rw [← Int.natAbs_eq_zero, natAbs_tdiv, Nat.div_eq_zero_iff]
  omega

end Sys2Proof.Machine
end

section
/-! The thirteen fields one by one (41_telemetry_decoder.md R113 to R125): where each is found, and the
value it puts on its Sample output. -/

namespace Sys2Proof.Machine

open Sys2Proof

/-! ## The values on the outputs -/

theorem unscaledOut_toInt (raw : Half) : (unscaledOut raw).toInt = raw.toInt :=
  narrow16_toInt (sext16_range raw).1 (sext16_range raw).2

theorem magOut_toInt (raw : Half) : (magOut raw).toInt = tdiv raw.toInt 3 :=
  (tdiv_magDivisor_fits (sext16_range raw)).2.2

theorem angleOut_toInt (raw : Half) : (angleOut raw).toInt = tdiv raw.toInt 10 :=
  (tdiv_angleDivisor_fits (sext16_range raw)).2.2

/-! ## The rule of a field -/

/-- A field obeys its rule when its offset decodes to its instruction and the instruction puts an output
of the right value in its place. -/
theorem fieldRule_of_exec {off : Nat} {mk : Half → Instr}
    {put : Option Half → SampleOut → SampleOut} {value : Int → Int} {out : Half → Half}
    (hvalue : ∀ raw, (out raw).toInt = value raw.toInt)
    (hdecode : ∀ raw, decodeField off raw = .ok (mk raw))
    (hexec : ∀ raw s, exec (mk raw) s = .next (s.mapSample (put (some (out raw))))) :
    FieldRule off mk put value := by
  constructor
  · intro F lo hi hlo hhi
    exact ⟨frameWord_eq_some.2 ⟨lo, hi, hlo, hhi, rfl⟩, hdecode _,
      field16_eq_some.2 ⟨lo, hi, hlo, hhi, rfl⟩⟩
  · intro raw s
    exact ⟨out raw, hvalue raw, hexec raw s⟩

/-- Settles O15: the accelerometer fields are unscaled. -/
theorem accelerometerFields : Obligations.AccelerometerFields :=
  ⟨fieldRule_of_exec unscaledOut_toInt (fun _ => rfl) fun _ _ => rfl,
    fieldRule_of_exec unscaledOut_toInt (fun _ => rfl) fun _ _ => rfl,
    fieldRule_of_exec unscaledOut_toInt (fun _ => rfl) fun _ _ => rfl⟩

/-- Settles O16: the gyro fields are unscaled. -/
theorem gyroFields : Obligations.GyroFields :=
  ⟨fieldRule_of_exec unscaledOut_toInt (fun _ => rfl) fun _ _ => rfl,
    fieldRule_of_exec unscaledOut_toInt (fun _ => rfl) fun _ _ => rfl,
    fieldRule_of_exec unscaledOut_toInt (fun _ => rfl) fun _ _ => rfl⟩

/-- Settles O18: the barometer and the heading are unscaled, and so signed. -/
theorem barometerAndHeadingFields : Obligations.BarometerAndHeadingFields :=
  ⟨fieldRule_of_exec unscaledOut_toInt (fun _ => rfl) fun _ _ => rfl,
    fieldRule_of_exec unscaledOut_toInt (fun _ => rfl) fun _ _ => rfl⟩

/-- Settles O17: the magnetometer fields are divided by 3, toward zero. -/
theorem magnetometerFields : Obligations.MagnetometerFields := by
  refine ⟨fieldRule_of_exec magOut_toInt (fun _ => rfl) fun _ _ => rfl,
    fieldRule_of_exec magOut_toInt (fun _ => rfl) fun _ _ => rfl,
    fieldRule_of_exec magOut_toInt (fun _ => rfl) fun _ _ => rfl, fun raw => ?_⟩
  obtain ⟨hlow, hhigh, -⟩ := tdiv_magDivisor_fits (sext16_range raw)
  exact ⟨hlow, hhigh, (tdiv_eq_zero_iff (by decide)).trans (by omega)⟩

/-- Settles O19: roll and pitch are divided by 10, toward zero. -/
theorem angleFields : Obligations.AngleFields := by
  refine ⟨fieldRule_of_exec angleOut_toInt (fun _ => rfl) fun _ _ => rfl,
    fieldRule_of_exec angleOut_toInt (fun _ => rfl) fun _ _ => rfl, fun raw => ?_⟩
  obtain ⟨hlow, hhigh, -⟩ := tdiv_angleDivisor_fits (sext16_range raw)
  exact ⟨hlow, hhigh, (tdiv_eq_zero_iff (by decide)).trans (by omega)⟩

end Sys2Proof.Machine
end

section
/-! The Sample as a whole (41_telemetry_decoder.md R110, R126, R128): it depends on its thirteen fields
alone, every Frame of 82 bytes has them, and every member fits its output. -/

namespace Sys2Proof.Machine

open Sys2Proof

/-- The byte pairs of the fields lie at 2 to 23 and at 78 to 81 (30_encoding.md R56). -/
theorem fieldOffsets_bounds :
    ∀ off ∈ fieldOffsets, (2 ≤ off ∧ off + 1 ≤ 23) ∨ (78 ≤ off ∧ off + 1 ≤ 81) := by
  decide

theorem decodeSample_congr {F G : Frame}
    (h : ∀ off ∈ fieldOffsets, field16 F off = field16 G off) :
    decodeSample F = decodeSample G := by
  simp only [fieldOffsets, List.forall_mem_cons] at h
  simp only [decodeSample, h]

theorem decodeSample_isSome {F : Frame} (hlen : 82 ≤ F.length) : ∃ x, decodeSample F = some x := by
  have hfield : ∀ off ∈ fieldOffsets, ∃ v, field16 F off = some v := fun off hoff => by
    have hbounds := fieldOffsets_bounds off hoff
    exact field16_isSome (by omega)
  choose! v hv using hfield
  simp only [fieldOffsets, List.forall_mem_cons] at hv
  simp only [decodeSample, hv, Option.bind_eq_bind, Option.bind_some]
  exact ⟨_, rfl⟩

/-- Settles O23: no field has a byte outside the assigned offsets. -/
theorem decodeIgnoresUnassignedBytes : Obligations.DecodeIgnoresUnassignedBytes := by
  intro F G h
  refine decodeSample_congr fun off hoff => ?_
  have hbounds := fieldOffsets_bounds off hoff
  exact field16_congr (h off (by omega)) (h (off + 1) (by omega))

/-- Settles O22: the Frame has all thirteen fields, and byte 0 is in none of them. -/
theorem decodeTotalWithoutMarkerCheck : Obligations.DecodeTotalWithoutMarkerCheck := by
  intro F hlen
  obtain ⟨x, hx⟩ := decodeSample_isSome hlen
  have hset : ∀ b : Byte, decodeSample (F.set 0 b) = some x := fun b =>
    (decodeIgnoresUnassignedBytes _ _ fun i hi => List.getElem?_set_ne (by omega)).trans hx
  obtain ⟨haccX, haccY, haccZ, hgyrX, hgyrY, hgyrZ, hmagX, hmagY, hmagZ, hbaro, hheading, hroll,
    hpitch⟩ := decodeSample_eq_some.1 hx
  exact ⟨x, hx, hset, haccX.symm, haccY.symm, haccZ.symm, hgyrX.symm, hgyrY.symm, hgyrZ.symm,
    hmagX.symm, hmagY.symm, hmagZ.symm, hbaro.symm, hheading.symm, hroll.symm, hpitch.symm⟩

/-! ## Ranges and reading back -/

section
variable {F : Frame} {off : Nat} {v : Int}

theorem unscaled_member_fits (h : field16 F off = some v) :
    -32768 ≤ v ∧ v ≤ 32767 ∧ (narrow16 v).toInt = v := by
  obtain ⟨hlow, hhigh⟩ := field16_range h
  exact ⟨hlow, hhigh, narrow16_toInt hlow hhigh⟩

theorem mag_member_fits (h : (field16 F off).map (tdiv · magDivisor) = some v) :
    -10922 ≤ v ∧ v ≤ 10922 ∧ (narrow16 v).toInt = v := by
  obtain ⟨a, ha, rfl⟩ := Option.map_eq_some_iff.1 h
  exact tdiv_magDivisor_fits (field16_range ha)

theorem angle_member_fits (h : (field16 F off).map (tdiv · angleDivisor) = some v) :
    -3276 ≤ v ∧ v ≤ 3276 ∧ (narrow16 v).toInt = v := by
  obtain ⟨a, ha, rfl⟩ := Option.map_eq_some_iff.1 h
  exact tdiv_angleDivisor_fits (field16_range ha)

end

/-- A value stored low byte first is read back by its field. -/
theorem field16_of_stored {F : Frame} {off : Nat} {v : Int} (h1 : -32768 ≤ v) (h2 : v ≤ 32767)
    (hlo : F[off]? = some (BitVec.ofNat 8 ((v % 65536).toNat % 256)))
    (hhi : F[off + 1]? = some (BitVec.ofNat 8 ((v % 65536).toNat / 256))) :
    field16 F off = some v :=
  field16_eq_some.2 ⟨_, _, hlo, hhi, by rw [bytePair_eq_narrow16, narrow16_toInt h1 h2]⟩

/-- Settles O24: each member is a field in its range, and storing and scaling are undone by reading. -/
theorem sampleRangesAndRoundTrip : Obligations.SampleRangesAndRoundTrip := by
  refine ⟨fun F x hx => ?_, fun F off v => field16_of_stored,
    fun m _ _ => tdiv_mul_self (by decide) m, fun a _ _ => tdiv_mul_self (by decide) a⟩
  obtain ⟨haccX, haccY, haccZ, hgyrX, hgyrY, hgyrZ, hmagX, hmagY, hmagZ, hbaro, hheading, hroll,
    hpitch⟩ := decodeSample_eq_some.1 hx
  simp only [List.forall_mem_cons]
  exact ⟨⟨unscaled_member_fits haccX, unscaled_member_fits haccY, unscaled_member_fits haccZ,
      unscaled_member_fits hgyrX, unscaled_member_fits hgyrY, unscaled_member_fits hgyrZ,
      unscaled_member_fits hbaro, unscaled_member_fits hheading, List.forall_mem_nil _⟩,
    ⟨mag_member_fits hmagX, mag_member_fits hmagY, mag_member_fits hmagZ, List.forall_mem_nil _⟩,
    ⟨angle_member_fits hroll, angle_member_fits hpitch, List.forall_mem_nil _⟩⟩

end Sys2Proof.Machine
end

section
/-! No exception (60_exceptions.md R140): in a resting state every event is answered. -/

namespace Sys2Proof.Machine

open Sys2Proof

/-- 60_exceptions.md R140 event by event: `RESET` and `IDLE` are answered in every state, and a resting
state falls under a case of `FEED`, whose Frame is long enough for the decoder. -/
theorem State.Inv.safeStep {s : State} (h : s.Inv) (w : EventWord) : SafeStep w s := by
  cases hev : decodeEvent w with
  | reset => exact ⟨_, stepOn_reset hev⟩
  | idle => exact ⟨_, stepOn_idle hev⟩
  | feed b =>
    obtain ⟨u, hcase⟩ := h.exists_feedCase b
    obtain ⟨f, hstep⟩ := hcase.stepOn hev h.frameLength_ge
    exact ⟨_, hstep⟩

/-- Settles O32: a step takes its event, or none, in a state that meets the invariant. -/
theorem stepNeverStops : Obligations.StepNeverStops := by
  refine fun s h => ⟨h.safeStep, ?_⟩
  cases hp : s.pending with
  | nil => exact step_of_no_pending hp ▸ h.safeStep noEventWord
  | cons w ws => exact step_of_pending hp ▸ (h.setPending ws).safeStep w

end Sys2Proof.Machine
end

section
/-! `DesyncError` (60_exceptions.md R141): when a step drops its byte, and what the drop leaves. -/

namespace Sys2Proof.Machine

open Sys2Proof

/-- The cause (R141): `FEED b` drops just where its byte is not the marker and its class awaits one. -/
theorem FeedCase.dropped_iff {s u : State} {b : Byte} (h : FeedCase s b u) :
    u.out.dropped = true ↔ b ≠ s.cfg.marker ∧
      (s.stateClass = .empty ∨ s.cfg.policy = .A ∧ s.stateClass = .full) := by
  rw [State.stateClass_eq_empty, State.stateClass_eq_full]
  cases h with
  | drop hb hc =>
    refine iff_of_true rfl ⟨hb, ?_⟩
    rcases Nat.eq_zero_or_pos s.fillIndex with h0 | hpos
    · exact .inl h0
    · exact hc.imp_right fun ⟨hp, hfull⟩ => ⟨hp, hpos, hfull⟩
  | store hlt hb =>
    refine iff_of_false Bool.false_ne_true fun ⟨hne, hc⟩ => ?_
    rcases hc with h0 | ⟨-, -, hfull⟩
    · exact hne (hb h0)
    · exact Nat.ne_of_lt hlt hfull
  | complete _ hpos hlast =>
    refine iff_of_false Bool.false_ne_true fun ⟨_, hc⟩ => ?_
    rcases hc with h0 | ⟨-, -, hfull⟩ <;> omega
  | retrigger _ _ _ hb => exact iff_of_false Bool.false_ne_true fun ⟨hne, _⟩ => hne hb

/-- `RESET` and `IDLE` never drop, so the cause of a drop is that of `FEED`. -/
theorem EventCase.dropped_iff {s u : State} {ev : Event} (h : EventCase s ev u) :
    u.out.dropped = true ↔ ∃ b, ev = .feed b ∧ b ≠ s.cfg.marker ∧
      (s.stateClass = .empty ∨ s.cfg.policy = .A ∧ s.stateClass = .full) := by
  cases h with
  | reset => simp
  | idle => simp
  | feed b _ hfeed => simp [hfeed.dropped_iff]

/-- The effect (R141): whatever drops does nothing but note the drop. -/
theorem EventCase.eq_noteDrop {s u : State} {ev : Event} (h : EventCase s ev u)
    (hdrop : u.out.dropped = true) : u = s.clearOut.noteDrop := by
  cases h with
  | reset => cases hdrop
  | idle => cases hdrop
  | feed b _ hfeed =>
    cases hfeed with
    | drop => rfl
    | store => cases hdrop
    | complete => cases hdrop
    | retrigger => cases hdrop

/-- The saturating increment, also of a counter at or beyond its top. -/
theorem satInc_eq_min (width c : Nat) : satInc width c = min (c + 1) (max c (2 ^ width - 1)) := by
  unfold satInc
  split <;> omega

/-- Settles O36: the operation of the event decides whether its byte drops and what that leaves, and the
decoder's outputs do not touch it; the last clause is the counter's own law. -/
theorem desyncErrorCauseAndEffect : Obligations.DesyncErrorCauseAndEffect := by
  intro w s t h
  have hcount := stepOn_desyncCount_eq h
  obtain ⟨u, f, hcase, rfl⟩ := stepOn_cases h
  refine ⟨hcase.dropped_iff, fun hdrop => ?_, fun hkeep hev => ?_⟩
  · obtain rfl := hcase.eq_noteDrop hdrop
    exact ⟨rfl, rfl, rfl, satInc_eq_min _ _⟩
  · rw [hcount, if_neg hev, if_neg (Bool.eq_false_iff.1 hkeep)]

end Sys2Proof.Machine
end

section
/-! Stale bytes (70_reset_and_hazards.md R173, 10_state.md R21): one rule per update of the state for two
states that differ in stale bytes only, then the cases of an event, the step and the run. -/

namespace Sys2Proof.Machine

open Sys2Proof

section

variable {s s' : State}

/-- Two such states differ in `buf` alone, so an event falls under the same case in both. -/
theorem SameButStale.exists_buf (h : SameButStale s s') : ∃ m, s' = { s with buf := m } :=
  ⟨s'.buf, State.ext_fields h.cfg.symm rfl h.fillIndex.symm h.desyncCount.symm h.pending.symm
    h.out.symm⟩

theorem SameButStale.clearOut (h : SameButStale s s') : SameButStale s.clearOut s'.clearOut :=
  ⟨h.cfg, h.fillIndex, h.desyncCount, h.pending, rfl, h.front⟩

theorem SameButStale.noteDrop (h : SameButStale s s') : SameButStale s.noteDrop s'.noteDrop :=
  ⟨h.cfg, h.fillIndex, by simp [h.cfg, h.desyncCount], h.pending, by simp [h.out], h.front⟩

/-- With the cursor at 0 every byte is stale. -/
theorem SameButStale.setFill_zero (h : SameButStale s s') :
    SameButStale (s.setFill 0) (s'.setFill 0) :=
  ⟨h.cfg, rfl, h.desyncCount, h.pending, h.out, fun _ hi => absurd hi (Nat.not_lt_zero _)⟩

theorem SameButStale.clearRegs (h : SameButStale s s') : SameButStale s.clearRegs s'.clearRegs :=
  ⟨h.cfg, rfl, rfl, h.pending, h.out, fun _ hi => absurd hi (Nat.not_lt_zero _)⟩

theorem SameButStale.mapSample (h : SameButStale s s') (f : SampleOut → SampleOut) :
    SameButStale (s.mapSample f) (s'.mapSample f) :=
  ⟨h.cfg, h.fillIndex, h.desyncCount, h.pending, by simp [h.out], h.front⟩

/-- A store overwrites the first stale byte with the same byte in both states. -/
theorem SameButStale.store (h : SameButStale s s') (b : Byte) :
    SameButStale (s.store b) (s'.store b) where
  cfg := h.cfg
  fillIndex := congrArg Nat.succ h.fillIndex
  desyncCount := h.desyncCount
  pending := h.pending
  out := h.out
  front i hi := by
    rw [State.store_fillIndex] at hi
    rw [State.store_buf, State.store_buf, ← h.fillIndex, Memory.read_write, Memory.read_write]
    split
    · rfl
    · exact h.front i (by omega)

/-- An emission with the cursor at capacity: no byte of the snapshot is stale. -/
theorem SameButStale.emit (h : SameButStale s s') (hfull : s.fillIndex = s.cfg.frameLength) :
    SameButStale s.emit s'.emit := by
  have hsnapshot : s.snapshot = s'.snapshot := by
    rw [State.snapshot, State.snapshot, ← h.cfg]
    exact Memory.readRange_congr fun k hk => h.front _ (by omega)
  exact ⟨h.cfg, h.fillIndex, h.desyncCount, h.pending, by simp [h.out, hsnapshot], h.front⟩

theorem FeedCase.sameButStale {u : State} {b : Byte} (hcase : FeedCase s b u)
    (h : SameButStale s s') : ∃ u', FeedCase s' b u' ∧ SameButStale u u' := by
  obtain ⟨m, rfl⟩ := h.exists_buf
  cases hcase with
  | drop hb hc => exact ⟨_, .drop hb hc, h.clearOut.noteDrop⟩
  | store hlt hb hB => exact ⟨_, .store hlt hb hB, h.clearOut.store b⟩
  | complete hp hpos hlast =>
    exact ⟨_, .complete hp hpos hlast, ((h.clearOut.store b).emit hlast).setFill_zero⟩
  | retrigger hp hpos hfull hb =>
    exact ⟨_, .retrigger hp hpos hfull hb, (h.clearOut.emit hfull).setFill_zero.store b⟩

theorem EventCase.sameButStale {u : State} {ev : Event} (hcase : EventCase s ev u)
    (h : SameButStale s s') : ∃ u', EventCase s' ev u' ∧ SameButStale u u' := by
  cases hcase with
  | reset => exact ⟨_, .reset, h.clearOut.clearRegs⟩
  | idle => exact ⟨_, .idle, h.clearOut⟩
  | feed b _ hfeed =>
    obtain ⟨u', hfeed', hu⟩ := hfeed.sameButStale h
    exact ⟨u', .feed b u' hfeed', hu⟩

/-- The decoder sees the same Frame, so the whole step goes alike. -/
theorem stepOn_sameButStale {w : EventWord} {t : State} (hstep : stepOn w s = .next t)
    (h : SameButStale s s') : ∃ t', stepOn w s' = .next t' ∧ SameButStale t t' := by
  obtain ⟨u, hcase, ht⟩ := stepOn_iff.1 hstep
  obtain ⟨f, rfl, hf⟩ := sampleOutputs_uniform ht
  obtain ⟨u', hcase', hu⟩ := hcase.sameButStale h
  have hframe : u'.out.frame = u.out.frame := by rw [hu.out]
  exact ⟨_, stepOn_iff.2 ⟨u', hcase', hf u' hframe⟩, hu.mapSample f⟩

end

/-- Settles O45, by induction on the events: each step keeps the two states the same but for stale bytes,
the output record included. -/
theorem staleBytesNeverReachOutput : Obligations.StaleBytesNeverReachOutput := by
  intro ws
  induction ws with
  | nil =>
    intro s s' t outs h hrun
    cases hrun
    exact ⟨s', rfl, h⟩
  | cons w ws ih =>
    intro s s' t outs h hrun
    obtain ⟨u, os, hstep, hrest, rfl⟩ := runEvents_cons_eq_next.1 hrun
    obtain ⟨u', hstep', hu⟩ := stepOn_sameButStale hstep h
    obtain ⟨t', hrest', ht⟩ := ih u u' t os hu hrest
    exact ⟨t', runEvents_cons_eq_next.2 ⟨u', os, hstep', hrest', by rw [hu.out]⟩, ht⟩

end Sys2Proof.Machine
end

section
/-! `RESET` and what can follow it (70_reset_and_hazards.md R170, R172). -/

namespace Sys2Proof.Machine

open Sys2Proof

theorem decodeEvent_eq_reset {w : EventWord} (hrst : w.getLsbD 9 = true) :
    decodeEvent w = .reset := by
  rw [decodeEvent, rstBit, hrst]
  rfl

/-- Settles O1: `rst` overrides, and clearing the outputs, the cursor and the counter twice is clearing
them once. -/
theorem resetClearsCursorAndCounter : Obligations.ResetClearsCursorAndCounter := by
  intro s w cls hrst
  have hw := decodeEvent_eq_reset hrst
  exact ⟨by rw [hw]; rfl, s.clearOut.clearRegs, rfl, stepOn_reset hw, rfl, rfl,
    State.stateClass_eq_empty.2 rfl, rfl, rfl, rfl, rfl, rfl⟩

/-- Under Policy A the emitting `FEED` is the re-trigger, which leaves its marker in the buffer (R80). -/
theorem FeedCase.frame_eq_none_of_empty {s u : State} {b : Byte} (h : FeedCase s b u)
    (hp : s.cfg.policy = .A) (h0 : u.fillIndex = 0) : u.out.frame = none := by
  cases h with
  | drop => rfl
  | store => rfl
  | complete hB => simp [hp] at hB
  | retrigger => simp at h0

/-- Under Policy A a chunk that ends in EMPTY was in EMPTY throughout, so it emitted nothing. -/
theorem framesOf_chunk_eq_nil_of_empty {bs : List Byte} {s t : State} {outs : List Output}
    (h : chunk bs s = .next (t, outs)) (hp : s.cfg.policy = .A) (h0 : t.fillIndex = 0) :
    framesOf outs = [] := by
  induction bs generalizing s outs with
  | nil => cases h; rfl
  | cons b bs ih =>
    obtain ⟨v, os, hstep, hrest, rfl⟩ := chunk_cons_eq_next.1 h
    have hpv : v.cfg.policy = .A := (stepOn_cfg_pending_eq hstep).1 ▸ hp
    have hv : v.fillIndex = 0 := Nat.eq_zero_of_not_pos fun hpos =>
      Nat.ne_of_gt (chunk_fillIndex_pos hrest hpv hpos) h0
    obtain ⟨u, f, hcase, rfl⟩ := stepOn_feedWord_cases hstep
    have hfirst : (u.mapSample f).out.frame = none := hcase.frame_eq_none_of_empty hp hv
    rw [framesOf_cons, hfirst, ih hrest hpv]
    rfl

/-- From EMPTY a first Frame takes `FRAME_LENGTH` bytes, besides those the chunk leaves below the cursor
(R172). -/
theorem framesOf_chunk_eq_nil_of_lt {bs : List Byte} {s t : State} {outs : List Output}
    (h : chunk bs s = .next (t, outs)) (h0 : s.fillIndex = 0)
    (hlt : bs.length < s.cfg.frameLength + t.fillIndex) : framesOf outs = [] := by
  have hpot := chunk_emission_potential h
  have hlen : (framesOf outs).length * s.cfg.frameLength < 1 * s.cfg.frameLength := by omega
  exact List.eq_nil_of_length_eq_zero (Nat.lt_one_iff.1 (Nat.lt_of_mul_lt_mul_right hlen))

/-- Settles O3: `RESET` leaves an EMPTY state that meets the invariant, from where a Frame takes
`FRAME_LENGTH` bytes, and under Policy A its emission one more. -/
theorem resetStateAndEarliestFrame : Obligations.ResetStateAndEarliestFrame := by
  refine ⟨⟨rfl, rfl, rfl, rfl, rfl⟩, fun s bs hs => ?_⟩
  obtain ⟨t, outs, h⟩ := hs.clearOut.clearRegs.exists_chunk bs
  refine ⟨s.clearOut.clearRegs, rfl, rfl, rfl, State.stateClass_eq_empty.2 rfl, rfl, rfl, rfl,
    t, outs, h, fun _ hlt => ?_, fun hp hlt => ?_⟩
  · exact framesOf_chunk_eq_nil_of_lt h rfl (Nat.lt_add_right _ hlt)
  · rcases Nat.eq_zero_or_pos t.fillIndex with h0 | hpos
    · exact framesOf_chunk_eq_nil_of_empty h hp h0
    · exact framesOf_chunk_eq_nil_of_lt h rfl (Nat.lt_of_lt_of_le hlt (Nat.add_le_add_left hpos _))

end Sys2Proof.Machine
end

section
/-! Decoding and encoding (30_encoding.md sections 1, 2, 8): the event of a word, the field at an offset,
and the two directions of their agreement. -/

namespace Sys2Proof.Machine

open Sys2Proof

/-- The word of `FEED b` has no free bit: `rst` is 0, `in_valid` is 1 and the rest is `b`. -/
theorem eq_feedWord_inData {w : EventWord} (hrst : w.getLsbD 9 = false)
    (hvalid : w.getLsbD 8 = true) : w = feedWord (inData w) := by
  refine BitVec.eq_of_getLsbD_eq fun k hk => ?_
  rw [feedWord, BitVec.getLsbD_append, inData, BitVec.getLsbD_extractLsb']
  obtain hlt | rfl | rfl : k < 8 ∨ k = 8 ∨ k = 9 := by omega
  · simp [hlt]
  · simp [hvalid]
  · simpa using hrst

/-- Every event word falls under one of the three tests of 30_encoding.md R50. -/
theorem eventWord_cases (w : EventWord) :
    (w.getLsbD 9 = true ∧ decodeEvent w = .reset) ∨
      ((w.getLsbD 9 = false ∧ w.getLsbD 8 = false) ∧ decodeEvent w = .idle) ∨
      ∃ b, w = feedWord b := by
  cases hrst : w.getLsbD 9 with
  | true => exact .inl ⟨rfl, decodeEvent_eq_reset hrst⟩
  | false =>
    cases hvalid : w.getLsbD 8 with
    | false => exact .inr (.inl ⟨⟨rfl, rfl⟩, decodeEvent_eq_idle hrst hvalid⟩)
    | true => exact .inr (.inr ⟨_, eq_feedWord_inData hrst hvalid⟩)

/-- An event word decodes to the operation that its event selects. -/
theorem decode_event_eq_ok {cfg : Config} {cls : StateClass} {w : EventWord} {i : Instr} :
    decode cfg cls (.event w) = .ok i ↔ select cfg cls (decodeEvent w) = some i := by
  simp only [decode, decodeEventWord]
  split
  · rename_i hi; simp [hi]
  · rename_i hi; simp [hi]

/-- The four kinds of instruction and their formats (30_encoding.md R66). -/
theorem instr_kinds (i : Instr) :
    i = .reset ∨ i = .idle ∨ (∃ b, i ∈ appendsOf b ∨ i ∈ dropsOf b) ∨
      ∃ off raw, encode i = .frame16 off raw ∧ decodeField off raw = .ok i := by
  cases i <;> simp [appendsOf, dropsOf, encode, decodeField]

/-- A field instruction is encoded as it was found, and can be selected in every block and class. -/
theorem decodeField_sound {off : Nat} {raw : Half} {i : Instr} (h : decodeField off raw = .ok i) :
    encode i = .frame16 off raw ∧ (∀ cfg, i.wf cfg = true) ∧ ∀ cls, i.classOk cls = true := by
  unfold decodeField at h
  split at h <;> cases h <;> exact ⟨rfl, fun _ => rfl, fun _ => rfl⟩

/-- The encoding of an instruction that the block can select decodes to it (30_encoding.md R53, R54). -/
theorem decode_encode {cfg : Config} {cls : StateClass} {i : Instr} (hwf : i.wf cfg = true)
    (hcls : i.classOk cls = true) : decode cfg cls (encode i) = .ok i := by
  obtain rfl | rfl | ⟨b, hi⟩ | ⟨off, raw, henc, hdec⟩ := instr_kinds i
  · rfl
  · rfl
  · rw [encode_eq_feedWord.2 hi, decode_event_eq_ok, decodeEvent_feedWord]
    exact select_of_wf_classOk hi hwf hcls
  · rw [henc]
    exact hdec

/-- An event word is the encoding of what it selects, but for the bits that `RESET` and `IDLE` ignore. -/
theorem encode_of_select {cfg : Config} {cls : StateClass} {w : EventWord} {i : Instr}
    (h : select cfg cls (decodeEvent w) = some i) :
    encode i = .event w ∨ (i = .reset ∧ w.getLsbD 9 = true) ∨
      (i = .idle ∧ w.getLsbD 9 = false ∧ w.getLsbD 8 = false) := by
  obtain ⟨hrst, hw⟩ | ⟨hbits, hw⟩ | ⟨b, rfl⟩ := eventWord_cases w
  · rw [hw] at h
    cases h
    exact .inr (.inl ⟨rfl, hrst⟩)
  · rw [hw] at h
    cases h
    exact .inr (.inr ⟨rfl, hbits⟩)
  · rw [decodeEvent_feedWord] at h
    exact .inl (encode_eq_feedWord.2 (select_feed_mem h))

/-- Settles O27: selection is complete and sound for the conditions of the rows, and the words and offsets
are told apart by what they decode to. -/
theorem decodeAndEncodeAgree : Obligations.DecodeAndEncodeAgree := by
  refine ⟨fun cfg cls i hwf hcls => decode_encode hwf hcls, fun cfg cls e i h => ?_⟩
  cases e with
  | event w =>
    have hsel := decode_event_eq_ok.1 h
    obtain ⟨hwf, hcls⟩ := select_wf_classOk hsel
    exact ⟨hwf, hcls, (encode_of_select hsel).imp_right fun hbits => ⟨w, rfl, hbits⟩⟩
  | frame16 off raw =>
    obtain ⟨henc, hwf, hcls⟩ := decodeField_sound h
    exact ⟨hwf cfg, hcls cls, .inl henc⟩

/-- Settles O28: each word is decoded bit by bit. -/
theorem specWordsDecode : Obligations.SpecWordsDecode := by
  unfold Obligations.SpecWordsDecode
  decide

end Sys2Proof.Machine
end

section
/-! The step against the summaries of the two policies (40_frame_assembler.md, end of sections 2 and 3). -/

namespace Sys2Proof.Machine

open Sys2Proof

/-- A step from the selection of its event on (40_frame_assembler.md R70). -/
theorem stepOn_of_select {s : State} {w : EventWord} {i : Instr}
    (h : select s.cfg s.stateClass (decodeEvent w) = some i) :
    stepOn w s = andThen (exec i s) sampleOutputs := by
  simp only [stepOn, h]

/-- `feedB` does what the case of `FEED` says. -/
theorem FeedCase.feedB_eq {s u : State} {b : Byte} (h : FeedCase s b u) (hp : s.cfg.policy = .B) :
    feedB b s = .next u := by
  unfold feedB
  cases h with
  | drop hb hc =>
    have h0 : s.fillIndex = 0 := hc.resolve_right (by simp [hp])
    rw [if_pos h0, if_neg hb]
  | store hlt hb hB =>
    by_cases h0 : s.fillIndex = 0
    · rw [if_pos h0, if_pos (hb h0)]
    · have hnext := hB hp (Nat.pos_of_ne_zero h0)
      rw [if_neg h0, State.store_fillIndex, if_neg (Nat.ne_of_lt hnext)]
      rfl
  | complete _ hpos hlast =>
    rw [if_neg (Nat.ne_of_gt hpos), State.store_fillIndex, if_pos hlast]
    rfl
  | retrigger hA => simp [hp] at hA

/-- `feedA` does what the case of `FEED` says. -/
theorem FeedCase.feedA_eq {s u : State} {b : Byte} (h : FeedCase s b u) (hp : s.cfg.policy = .A) :
    feedA b s = .next u := by
  unfold feedA feedAStore
  cases h with
  | drop hb hc =>
    rw [if_neg fun h => hb h.2, if_neg]
    rintro (⟨-, hm⟩ | ⟨hpos, hlt⟩)
    · exact hb hm
    · rcases hc with h0 | ⟨-, hfull⟩
      · exact Nat.ne_of_gt hpos h0
      · exact Nat.ne_of_lt hlt hfull
  | store hlt hb hB =>
    rw [if_neg fun h => Nat.ne_of_lt hlt h.1, if_pos]
    rcases Nat.eq_zero_or_pos s.fillIndex with h0 | hpos
    · exact .inl ⟨h0, hb h0⟩
    · exact .inr ⟨hpos, hlt⟩
  | complete hB => simp [hp] at hB
  | retrigger _ _ hfull hb =>
    rw [if_pos ⟨hfull, hb⟩, if_pos (.inl ⟨rfl, hb⟩)]
    rfl

/-- The summary of either policy agrees with the cases of `FEED`, which the operations answer. -/
theorem FeedCase.feedSummary_eq {s u : State} {b : Byte} (h : FeedCase s b u) :
    feedSummary b s = .next u := by
  unfold feedSummary
  split
  · rename_i hp; exact h.feedA_eq hp
  · rename_i hp; exact h.feedB_eq hp

/-- Settles O41: in a resting state one case of `FEED` applies, and both the operation and the summary do
what it says. -/
theorem stepRefinesPolicySummary : Obligations.StepRefinesPolicySummary := by
  intro s b hs
  obtain ⟨u, hcase⟩ := hs.exists_feedCase b
  obtain ⟨i, hi, hu⟩ := hcase.answers
  rw [stepOn_of_select (by rwa [decodeEvent_feedWord]), hu, hcase.feedSummary_eq]

end Sys2Proof.Machine
end

section
/-! The parts of a step (40_frame_assembler.md R70, 41_telemetry_decoder.md R127, 93 U3): the decoded
instruction, then the decoder; and the `FEED` that selects nothing. -/

namespace Sys2Proof.Machine

open Sys2Proof

theorem andThen_assoc (r : Result) (f g : State → Result) :
    andThen (andThen r f) g = andThen r fun s => andThen (f s) g := by
  cases r <;> rfl

/-- Running instructions from the left, each on the result so far, is `execAll`. -/
theorem foldl_exec_eq (is : List Instr) (r : Result) :
    is.foldl (fun r i => andThen r (exec i)) r = andThen r (execAll is) := by
  induction is generalizing r with
  | nil => cases r <;> rfl
  | cons i is ih => rw [List.foldl_cons, ih, andThen_assoc]; rfl

/-- Settles O29: decoding an event word is the selection that `stepOn` makes. -/
theorem stepRunsDecodedInstruction : Obligations.StepRunsDecodedInstruction := by
  refine ⟨fun s w ws i hpend hdec => ?_, fun s hpend => ?_, fun s => sampleOutputs_of_none,
    fun s F is hF his => ?_⟩
  · rw [step_of_pending hpend]
    exact stepOn_of_select (s := s.setPending ws) (decode_event_eq_ok.1 hdec)
  · rw [step_of_no_pending hpend]
    exact stepOn_of_select (by rw [noEventWord, decodeEvent_idle]; rfl)
  · simp only [sampleOutputs, hF, his]
    exact (foldl_exec_eq is (.next s)).symm

theorem State.stateClass_eq_overrun {s : State} :
    s.stateClass = .overrun ↔ 0 < s.fillIndex ∧ s.cfg.frameLength < s.fillIndex :=
  classOf_eq_overrun

/-- Settles O42: in these classes `FEED` selects no operation. -/
theorem feedBeyondCapacityFaults : Obligations.FeedBeyondCapacityFaults := by
  intro s b hpos hbeyond
  have hnone : select s.cfg s.stateClass (.feed b) = none := by
    rcases hbeyond with hover | ⟨hp, hfull⟩
    · rw [State.stateClass_eq_overrun.2 ⟨hpos, hover⟩]
      cases hp : s.cfg.policy <;> simp [select, selectA, selectB, hp]
    · simp [select, selectB, hp, State.stateClass_eq_full.2 ⟨hpos, hfull⟩]
  simp only [stepOn, decodeEvent_feedWord, hnone]

/-- Settles O31: the state after reset is EMPTY with nothing written. -/
theorem resetMeetsInvariant : Obligations.ResetMeetsInvariant :=
  State.inv_of_empty rfl rfl rfl rfl (Nat.two_pow_pos _)

/-- Settles O2: `RESET` writes the cursor and the counter only. -/
theorem resetKeepsBuffer : Obligations.ResetKeepsBuffer :=
  fun s => ⟨s.clearOut.clearRegs, rfl, fun _ => rfl⟩

end Sys2Proof.Machine
end

section
/-! The guard of the `FEED` operations (log entry 6), and the Sample outputs that they leave absent. -/

namespace Sys2Proof.Machine

open Sys2Proof

/-- A `FEED` operation does something only where it is well formed and admitted in the class. -/
theorem exec_guarded {b : Byte} {i : Instr} (hi : i ∈ appendsOf b ∨ i ∈ dropsOf b) (s : State) :
    ∃ r, exec i s = whenSelected (i.wf s.cfg && i.classOk s.stateClass) r := by
  simp only [appendsOf, dropsOf, List.mem_cons, List.not_mem_nil, or_false] at hi
  rcases hi with (rfl | rfl | rfl | rfl | rfl | rfl) | rfl | rfl | rfl <;>
    exact ⟨_, congrArg (whenSelected · _)
      (by simp only [Instr.wf, Instr.classOk, Bool.and_right_comm])⟩

/-- Settles O14: the guard of each operation is the condition of its row. -/
theorem operationsStopWhereNotSelected : Obligations.OperationsStopWhereNotSelected := by
  intro s b i henc hsel
  obtain ⟨r, hr⟩ := exec_guarded (encode_eq_feedWord.1 henc) s
  rw [hr, hsel, whenSelected_false]

/-- No case of an event puts a value on a Sample output. -/
theorem EventCase.sample_absent {s u : State} {ev : Event} (h : EventCase s ev u) :
    u.out.sample = SampleOut.absent := by
  cases h with
  | reset => rfl
  | idle => rfl
  | feed _ _ hfeed =>
    cases hfeed with
    | drop => rfl
    | store => rfl
    | complete => rfl
    | retrigger => rfl

/-- Settles O58: where such an operation answers, its guard held, so its event selects it. -/
theorem assemblerLeavesSampleAbsent : Obligations.AssemblerLeavesSampleAbsent := by
  intro s t i w henc ht
  obtain rfl | rfl | ⟨b, hi⟩ | ⟨off, raw, hfield, -⟩ := instr_kinds i
  · cases ht; rfl
  · cases ht; rfl
  · obtain ⟨r, hr⟩ := exec_guarded hi s
    obtain ⟨hsel, -⟩ := whenSelected_eq_next.1 (hr ▸ ht)
    obtain ⟨hwf, hcls⟩ := Bool.and_eq_true_iff.1 hsel
    exact (exec_selected_cases (select_of_wf_classOk hi hwf hcls) ht).sample_absent
  · cases henc.symm.trans hfield

end Sys2Proof.Machine
end

section
/-! The Sample outputs of an emitting step (41_telemetry_decoder.md R127): the thirteen field instructions
of a Frame put `decode` of it there. -/

namespace Sys2Proof.Machine

open Sys2Proof

/-- The field instructions of a Frame exist only where all its byte pairs do. -/
theorem frameWord_of_fieldInstrs {F : Frame} {offs : List Nat} {is : List Instr}
    (h : fieldInstrs F offs = .ok is) : ∀ off ∈ offs, ∃ raw, frameWord F off = some raw := by
  induction offs generalizing is with
  | nil => exact List.forall_mem_nil _
  | cons off offs ih =>
    rw [fieldInstrs] at h
    split at h
    · cases h
    · rename_i raw hraw
      split at h
      · cases h
      · split at h
        · cases h
        · rename_i is' his
          exact List.forall_mem_cons.2 ⟨⟨raw, hraw⟩, ih his⟩

theorem State.mapSample_mapSample (s : State) (f g : SampleOut → SampleOut) :
    (s.mapSample f).mapSample g = s.mapSample fun o => g (f o) := rfl

/-- The thirteen instructions of a Frame write every Sample output, each from its own field, so what was
there before is gone. -/
theorem execAll_frameInstrs {F : Frame} {is : List Instr} (h : frameInstrs F = .ok is) :
    ∃ x, decodeSample F = some x ∧ ∀ s, execAll is s = .next (s.mapSample fun _ => x.outputs) := by
  have hpairs := frameWord_of_fieldInstrs h
  choose! raw hraw using hpairs
  simp only [fieldOffsets, List.forall_mem_cons] at hraw
  simp only [frameInstrs, fieldOffsets, fieldInstrs, hraw, decodeField, Except.ok.injEq] at h
  subst h
  simp only [decodeSample, field16, hraw, Option.map_some, Option.bind_eq_bind, Option.bind_some]
  refine ⟨_, rfl, fun s => ?_⟩
  simp only [execAll, exec, execAccX, execAccY, execAccZ, execGyrX, execGyrY, execGyrZ, execMagX,
    execMagY, execMagZ, execBaro, execHeading, execRoll, execPitch, andThen_next,
    State.mapSample_mapSample]
  rfl

/-- The decoder's part of an emitting step. -/
theorem sampleOutputs_eq_decodeSample {u t : State} {F : Frame} (hF : u.out.frame = some F)
    (h : sampleOutputs u = .next t) :
    ∃ x, decodeSample F = some x ∧ t = u.mapSample fun _ => x.outputs := by
  simp only [sampleOutputs, hF] at h
  cases his : frameInstrs F with
  | error e => simp [his] at h
  | ok is =>
    obtain ⟨x, hx, hexec⟩ := execAll_frameInstrs his
    simp only [his, hexec] at h
    exact ⟨x, hx, (Host.Outcome.next.inj h).symm⟩

/-- Settles O39: the assembler leaves the outputs absent, and the decoder sets all of an emitted Frame. -/
theorem sampleOutputsAreDecodedFrame : Obligations.SampleOutputsAreDecodedFrame := by
  intro w s t h
  obtain ⟨u, hcase, ht⟩ := stepOn_iff.1 h
  have hframe : t.out.frame = u.out.frame := by
    obtain ⟨f, rfl⟩ := sampleOutputs_eq_next ht
    rfl
  rw [hframe]
  refine ⟨fun hnone => ?_, fun F hF => ?_⟩
  · rw [sampleOutputs_of_none hnone] at ht
    cases ht
    exact hcase.sample_absent
  · obtain ⟨x, hx, rfl⟩ := sampleOutputs_eq_decodeSample hF ht
    exact ⟨x, hx, rfl⟩

end Sys2Proof.Machine
end

section
/-! The interface signals (10_state.md R18, R19; 00_scope.md R6): their widths, and the bytes of
`frame_data`. -/

namespace Sys2Proof.Machine

open Sys2Proof

/-- `IDX_WIDTH` bits are just enough for every value of the cursor (00_scope.md R6). -/
theorem lt_two_pow_iff_idxWidth_le {cfg : Config} {width : Nat} :
    cfg.frameLength < 2 ^ width ↔ idxWidth cfg ≤ width := by
  unfold idxWidth
  split
  · rename_i h0; simp [h0]
  · rename_i h0; exact (Nat.log2_lt h0).symm

/-- Settles O54: the width is the number of binary digits of `FRAME_LENGTH`. -/
theorem cursorWidthIsCeilLog : Obligations.CursorWidthIsCeilLog :=
  ⟨fun _ _ => lt_two_pow_iff_idxWidth_le, by decide, by decide⟩

theorem frameNumber_lt (F : Frame) : frameNumber F < 256 ^ F.length := by
  induction F with
  | nil => decide
  | cons b F ih =>
    have hb := b.isLt
    rw [frameNumber, List.length_cons, Nat.pow_succ]
    omega

/-- Byte `i` of a Frame is digit `i` of its number to the base 256. -/
theorem frameNumber_digit {F : Frame} {i : Nat} {b : Byte} (h : F[i]? = some b) :
    frameNumber F / 256 ^ i % 256 = b.toNat := by
  induction F generalizing i with
  | nil => cases h
  | cons c F ih =>
    have hc := c.isLt
    cases i with
    | zero =>
      cases h
      rw [frameNumber]
      omega
    | succ i =>
      have hdiv : frameNumber (c :: F) / 256 = frameNumber F := by rw [frameNumber]; omega
      rw [Nat.pow_succ', ← Nat.div_div_eq_div_mul, hdiv]
      exact ih h

/-- The 8 bits of byte `i` in the number of a Frame. -/
theorem extractLsb'_frameNumber {F : Frame} {i : Nat} {b : Byte} (h : F[i]? = some b) :
    (BitVec.ofNat (8 * F.length) (frameNumber F)).extractLsb' (8 * i) 8 = b := by
  have hlt : frameNumber F < 2 ^ (8 * F.length) := by
    rw [Nat.pow_mul]
    exact frameNumber_lt F
  apply BitVec.eq_of_toNat_eq
  rw [BitVec.extractLsb'_toNat, BitVec.toNat_ofNat, Nat.mod_eq_of_lt hlt, Nat.shiftRight_eq_div_pow,
    Nat.pow_mul]
  exact frameNumber_digit h

/-- Settles O55: `frame_data` is the number of the Frame. -/
theorem frameDataSignal : Obligations.FrameDataSignal := by
  intro s
  refine ⟨rfl, Option.isSome_iff_ne_none, rfl, fun hnone => by rw [State.frameData, hnone]; rfl,
    fun F hF hlen => ⟨_, by rw [State.frameData, hF]; rfl, fun i hi => ?_⟩⟩
  have hbyte : F[i]? = some F[i] := List.getElem?_eq_getElem (hlen ▸ hi)
  rw [hbyte, ← hlen, extractLsb'_frameNumber hbyte]

/-- Settles O56: the invariant keeps both values in the range of their widths. -/
theorem statusSignals : Obligations.StatusSignals := by
  intro s hs
  have hfill : s.fillIndex < 2 ^ idxWidth s.cfg :=
    Nat.lt_of_le_of_lt (State.cursorOk_iff.1 hs.cursor).1 (lt_two_pow_iff_idxWidth_le.2 le_rfl)
  refine ⟨Nat.mod_eq_of_lt hfill, Nat.mod_eq_of_lt hs.counter, fun F hF hlen => ?_⟩
  rw [State.frameLast, hF, List.getLast?_eq_getElem?, hlen]
  rfl

end Sys2Proof.Machine
end
